-- ==== Sys2Proof/Word.lean ====
section
/-!
DEFINITION. The bit widths the spec declares once (00_scope.md R7, R14): bytes, channel words, logical addresses,
page numbers, offsets and frame indices.
-/

namespace Sys2Proof

/-- A byte, 0..255 (R14). -/
abbrev Byte := BitVec 8

/-- One word of the command or response channel (R90, R100). -/
abbrev Word := BitVec 32

/-- A logical address: ADDR_WIDTH = 16 bits (R7, R61). -/
abbrev Addr := BitVec 16

/-- A page number: PAGE_BITS = 8 bits (R7, R14). -/
abbrev Page := BitVec 8

/-- An offset in a page: OFFSET_BITS = 8 bits (R7, R14). -/
abbrev Offset := BitVec 8

/-- A frame index, "stored in 8 bits" (R14). -/
abbrev Frame := BitVec 8

end Sys2Proof
end

