-- ==== Sys2Proof/Syntax.lean ====
section
/-!
DEFINITION. The five commands of spec/opcode_table.json (R91), with the operand fields of R92 to R96. Nothing here says
what a command does.
-/

namespace Sys2Proof

/-- A command word that decodes (R97). The operands are the raw unsigned fields (R98): INIT's POLICY = 3 and NFRAMES
outside 1..256 are legal encodings that the command itself refuses (R99). -/
inductive Instr where
  /-- INIT nframes, policy (R92, R230). -/
  | init (nframes : BitVec 9) (policy : BitVec 2)
  /-- TRANSLATE addr (R93, R200). -/
  | translate (addr : Addr)
  /-- SUMMARY (R94, R231). -/
  | summary
  /-- PROBE.PT page (R95, R153). -/
  | probePt (page : Page)
  /-- PROBE.TLB page (R96, R133). -/
  | probeTlb (page : Page)
deriving DecidableEq, Repr

end Sys2Proof
end

