-- ==== Sys2Proof/WellFormed.lean ====
section
/-!
DEFINITION. Which commands an assembler accepts (R107): every operand in its range. A command outside it can still be
sent as a raw word; the block then decodes it and refuses it itself (R99), so the machine does not ask for this check.
-/

namespace Sys2Proof

/-- R107: "nframes 1..256, policy one of FIFO LRU OPT", addr 0..65535 and page 0..255, the last two by their types. -/
def Instr.wf : Instr → Bool
  | .init nframes policy => decide (1 ≤ nframes.toNat ∧ nframes.toNat ≤ 256 ∧ policy ≠ 3)
  | .translate _ => true
  | .summary => true
  | .probePt _ => true
  | .probeTlb _ => true

end Sys2Proof
end

