-- ==== Sys2Proof/Decode.lean ====
section
/-!
DEFINITION. The command decoder of R97, total over all 2^32 words, rejecting by name, and after it the encoder of
R92 to R96.
-/

namespace Sys2Proof

/-- The result of decoding a word: a command, or the reason the word is refused (R97). -/
inductive Decoded where
  /-- A legal command word. -/
  | ok (i : Instr)
  /-- OP = 0x0 or 0x6..0xF (R252). -/
  | illegalOpcode
  /-- A legal OP with a nonzero reserved bit (R253). -/
  | reservedBits
deriving DecidableEq, Repr

/-- OP, bits 31:28 (R90). -/
def opField (w : Word) : BitVec 4 := w.extractLsb' 28 4

/-- A command of which the bits `lo + width - 1 : lo` are reserved: refused if one of them is set (R97). -/
def unlessReserved (w : Word) (lo width : Nat) (i : Instr) : Decoded :=
  if w.extractLsb' lo width = 0 then .ok i else .reservedBits

/-- R97: the opcode test first, the reserved-bit test second. Operand values are the command's own business. -/
def decode (w : Word) : Decoded :=
  if opField w = 0x1 then unlessReserved w 11 17 (.init (w.extractLsb' 0 9) (w.extractLsb' 9 2))
  else if opField w = 0x2 then unlessReserved w 16 12 (.translate (w.extractLsb' 0 16))
  else if opField w = 0x3 then unlessReserved w 0 28 .summary
  else if opField w = 0x4 then unlessReserved w 8 20 (.probePt (w.extractLsb' 0 8))
  else if opField w = 0x5 then unlessReserved w 8 20 (.probeTlb (w.extractLsb' 0 8))
  else .illegalOpcode

/-- The command word of a command (R92 to R96): OP, zeros in the reserved bits, the operand fields. -/
def encode : Instr → Word
  | .init nframes policy => 0x1#4 ++ 0#17 ++ policy ++ nframes
  | .translate addr => 0x2#4 ++ 0#12 ++ addr
  | .summary => 0x3#4 ++ 0#28
  | .probePt page => 0x4#4 ++ 0#20 ++ page
  | .probeTlb page => 0x5#4 ++ 0#20 ++ page

/-- R107: an assembler refuses an operand outside its range rather than encode it. -/
def assemble (i : Instr) : Option Word := if i.wf then some (encode i) else none

/-- The command read from the `nbits` low bits of `w`, numbered as spec/opcode_table.json numbers them; every bit above
them is 0. A command is one 32-bit word on the channel (R90), so there is no byte order to choose. Log entry 18. -/
def decodeTableWord (nbits w : Nat) : Option Instr :=
  match decode (BitVec.ofNat 32 (w % 2 ^ nbits)) with
  | .ok i => some i
  | .illegalOpcode => none
  | .reservedBits => none

end Sys2Proof
end

