-- ==== Sys2Proof/Config.lean ====
section
/-!
DEFINITION. The fixed parameters of R7 and the free values: what the spec leaves as a draw or as a run parameter
with no default (R9, R31, R65, R232; 93_implementation_defined.md U2, U3, U6). A free value has no body, so no proof
can know it and every statement holds whatever it is.
-/

namespace Sys2Proof.Config

/-- NUM_PAGES = PT_ENTRIES = 256 (R7); also the largest NUM_FRAMES (R8). -/
abbrev numPages : Nat := 256

/-- PAGE_SIZE = 256 bytes (R7). -/
abbrev pageSize : Nat := 256

/-- TLB_ENTRIES = 16 (R7). -/
abbrev tlbEntries : Nat := 16

/-- FRAME_INIT (R9, R31, U2): `frameInit n a` is the byte at address `a` of the frame store under the `n`-th draw,
as long as nothing has been written there. Free value, log entry 5. -/
opaque frameInit : Nat → Nat → Byte

/-- BS (R9, R64): the backing-store byte at an address the state lists nothing for. Free value, log entry 2. -/
opaque backingStore : Nat → Byte

/-- BS_FAIL (R9, R65, U6): whether the `n`-th backing-store read fails, where the state does not list the port's
answer. Free value, log entry 3. -/
opaque bsFails : Nat → Bool

/-- TRACE (R9, R66): what the trace memory holds at reset, its length being TRACE_LEN. Free value, log entry 6. -/
opaque trace : List Addr

/-- What the LRU selector answers if it is asked for the head of an empty LRUQ. R47 says that no run reaches such a
state. Free value, log entry 12. -/
opaque noLruHead : Frame

/-- RATE_ROUNDING (R9, R232, U3): whether the host rounds this rate up where it lies halfway between two thousandths,
OPEN. Free value, log entry 19. -/
opaque rateRounding : Rat → Bool

/-- Whether the host's exit status is nonzero for an error with this code, where R234 does not say. Free value, log
entry 24. -/
opaque otherExit : BitVec 4 → Bool

end Sys2Proof.Config
end

