-- ==== Sys2Proof/Machine/State.lean ====
section
/-!
DEFINITION. The state of one block with the outside world it answers to, as plain data (10_state.md R20 to R50), the
reasons a step can stop, and the state after reset (R50, R290).
-/

namespace Sys2Proof.Machine

/-- POLICY (R22): FIFO = 0, LRU = 1, OPT = 2. The value 3 "cannot be held". -/
inductive Policy where
  | fifo
  | lru
  | opt
deriving DecidableEq, Repr

/-- The error codes 0..9 of R251. The codes 10..15 are "never produced" (R254). -/
inductive ErrCode where
  | none
  | illegalOpcode
  | reservedBits
  | badNumFrames
  | badPolicy
  | halted
  | cntOverflow
  | traceExhausted
  | traceMismatch
  | bsError
deriving DecidableEq, Repr

/-- OUTCOME, the path a TRANSLATE took (R39). -/
inductive Path where
  | tlbHit
  | softMiss
  | hardMiss
deriving DecidableEq, Repr

/-- What the backing-store port does with one read (R65; U6, U8). -/
inductive BsAnswer where
  /-- It returns the 256 bytes of the page. -/
  | ok
  /-- It answers `fail`. -/
  | fail
  /-- It never answers: the block waits in FAULT_READ (R299, U8). -/
  | silent
deriving DecidableEq, Repr

/-- One move of the host (R293). -/
inductive HostMove where
  /-- Send any 32-bit word on the command channel. -/
  | command (w : Word)
  /-- Assert the reset input between commands (R290). -/
  | reset
  /-- Send a word and assert reset before it is answered: the command is abandoned (R291, U17). -/
  | resetDuring (w : Word)
  /-- Provide the backing store (the listed bytes) and the trace memory for the next run (R292). Log entry 11. -/
  | load (bytes : List Host.Cell) (trace : List Addr)
deriving DecidableEq, Repr

/-- What the host has provided for the next run: the listed bytes of BS, a later one of the same address winning, and
TRACE (R292). -/
structure Filling where
  bytes : List Host.Cell
  trace : List Addr
deriving DecidableEq, Repr

/-- A byte memory: the bytes written, at strictly rising addresses. An address not listed reads as no value. -/
abbrev Memory := List Host.Cell

/-- The canonical form: addresses strictly rising. An unlisted address reads as no value, so no entry can equal it. -/
abbrev Memory.wf (m : Memory) : Prop := (m.map Prod.fst).Pairwise (· < ·)

/-- The architectural state of R20 and, after it, the model's own fields for the world outside the block (R9). -/
structure State where
  /-- NUM_FRAMES, 9 bits (R21). -/
  numFrames : BitVec 9
  /-- POLICY (R22). -/
  policy : Policy
  /-- HALTED (R23). -/
  halted : Bool
  /-- ERR, sticky (R24). -/
  err : Bool
  /-- ERRCODE, the first error since INIT or reset (R24). -/
  errCode : ErrCode
  /-- TOTAL, CNT_WIDTH bits; also the trace position (R25, R26). -/
  total : Nat
  /-- PAGE_FAULTS, CNT_WIDTH bits (R25). -/
  pageFaults : Nat
  /-- TLB_HITS, CNT_WIDTH bits (R25). -/
  tlbHits : Nat
  /-- TLB_MISSES, CNT_WIDTH bits (R25). -/
  tlbMisses : Nat
  /-- TLBQ, pairs (page, frame), least recently used first (R27). -/
  tlbq : List (Page × Frame)
  /-- PT, indexed by page; `none` is UNMAPPED (R29). -/
  pt : Vector (Option Frame) 256
  /-- FS, the bytes written since the last INIT or reset; byte k of frame f is at f*256+k (R31). -/
  fs : Memory
  /-- OWNER, indexed by frame; `none` is EMPTY (R32). Log entry 14 on its 256 places. -/
  owner : Vector (Option Page) 256
  /-- CURSOR, 8 bits (R33). -/
  cursor : Frame
  /-- FILLED, 9 bits (R34). -/
  filled : BitVec 9
  /-- LRUQ, least recently accessed first (R35). -/
  lruq : List Frame
  /-- Model's own: how many draws of FRAME_INIT were taken before the one in force (R31, R230). Log entry 5. -/
  fsDraw : Nat
  /-- Model's own: the bytes of BS that are known; any other is `Config.backingStore` (R64). Log entry 2. -/
  bs : Memory
  /-- Model's own: the port's answers to the coming reads, as far as they are known (R65). Log entry 3. -/
  bsAnswers : List BsAnswer
  /-- Model's own: how many backing-store reads were made (R65). Log entry 3. -/
  bsReads : Nat
  /-- Model's own: TRACE, its length being TRACE_LEN (R66). Log entry 6. -/
  trace : List Addr
  /-- Model's own: what the host has provided for the next run, which takes it at its start (R292, R293). Log entry
  11. -/
  nextFill : Option Filling
  /-- Model's own: CNT_WIDTH, 1..32 (R9). Log entry 7. -/
  cntWidth : Nat
  /-- Model's own: the host's coming moves, the next one first (R90, R293). Log entry 8. -/
  host : List HostMove
  /-- Model's own: the responses delivered, oldest first, each the list of its words (R100). Log entry 9. -/
  sent : List (List Word)
deriving DecidableEq, Repr

/-- Why a step stops. -/
inductive Fault where
  /-- Raised by TRANSLATE when a hard miss reads the backing store and the port never answers: "stuck: the command
  never ends" (U8, R299). Safe: the block makes no further move either. Log entry 4. -/
  | bsPortSilent
deriving DecidableEq, Repr

/-- Why a step has no meaning. No step is refused. -/
inductive Refusal where
  /-- Raised by an arm of `exec` whose instruction has no meaning yet (none is left). Safe: nothing follows from it. -/
  | notModelled (mnemonic : String)
deriving DecidableEq, Repr

/-- The machine right after reset: the values of R50 and R290, and the model's own fields as the log entries 2 to 9,
11 and 16 name them. -/
def State.reset : State where
  numFrames := 256
  policy := .fifo
  halted := false
  err := false
  errCode := .none
  total := 0
  pageFaults := 0
  tlbHits := 0
  tlbMisses := 0
  tlbq := []
  pt := Vector.replicate 256 none
  fs := []
  owner := Vector.replicate 256 none
  cursor := 0
  filled := 0
  lruq := []
  fsDraw := 0
  bs := []
  bsAnswers := []
  bsReads := 0
  trace := Config.trace
  nextFill := none
  cntWidth := 32
  host := []
  sent := []

end Sys2Proof.Machine
end

