-- ==== Sys2Proof/Machine/Flags.lean ====
section
/-!
DEFINITION. The status and the counters: the sticky ERR with its ERRCODE (R24, R262), FULL (R34), the statistics
(R207) and the signed value of a byte (R205).
-/

namespace Sys2Proof.Machine

/-- ERR and ERRCODE on an error (R262): ERR becomes 1; ERRCODE takes the code only if ERR was 0. -/
def latchError (code : ErrCode) (s : State) : State :=
  { s with err := true, errCode := if s.err then s.errCode else code }

/-- HALTED, set by a fatal error only (R262, R264). -/
def haltIf (fatal : Bool) (s : State) : State := { s with halted := s.halted || fatal }

/-- FULL := (FILLED = NUM_FRAMES) (R34). -/
def isFull (s : State) : Bool := s.filled == s.numFrames

/-- count(outcome) of R207. -/
def countPath (path : Path) (s : State) : State :=
  { s with
    total := s.total + 1
    tlbHits := s.tlbHits + (match path with | .tlbHit => 1 | .softMiss => 0 | .hardMiss => 0)
    tlbMisses := s.tlbMisses + (match path with | .tlbHit => 0 | .softMiss => 1 | .hardMiss => 1)
    pageFaults := s.pageFaults + (match path with | .tlbHit => 0 | .softMiss => 0 | .hardMiss => 1) }

/-- The signed value of a byte (R205, sext_8 of R10): `b` if `b < 128`, else `b - 256`. -/
def signedValue (b : Byte) : Int := if b.toNat < 128 then (b.toNat : Int) else (b.toNat : Int) - 256

end Sys2Proof.Machine
end

