-- ==== Sys2Proof/Machine/Operands.lean ====
section
/-!
DEFINITION. Every operand form the spec gives: the address decoder of 41_address_decoder.md, the POLICY operand of R22,
and the words of the response formats R100 to R106.
-/

namespace Sys2Proof.Machine

/-- The address decoder (R120): `addr[15:8]` is the page. -/
def pageOf (addr : Addr) : Page := addr.extractLsb' 8 8

/-- The address decoder (R120): `addr[7:0]` is the offset. -/
def offsetOf (addr : Addr) : Offset := addr.extractLsb' 0 8

/-- The POLICY operand of INIT (R92); 3 names no policy (R22). -/
def policyOfBits (b : BitVec 2) : Option Policy :=
  if b = 0 then some .fifo else if b = 1 then some .lru else if b = 2 then some .opt else none

/-- The encoding of POLICY (R22). -/
def policyBits : Policy → BitVec 2
  | .fifo => 0
  | .lru => 1
  | .opt => 2

/-- The encoding of the error codes (R251). -/
def errBits : ErrCode → BitVec 4
  | .none => 0
  | .illegalOpcode => 1
  | .reservedBits => 2
  | .badNumFrames => 3
  | .badPolicy => 4
  | .halted => 5
  | .cntOverflow => 6
  | .traceExhausted => 7
  | .traceMismatch => 8
  | .bsError => 9

/-- The OUTCOME field (R39, R101). -/
def pathBits : Path → BitVec 2
  | .tlbHit => 0
  | .softMiss => 1
  | .hardMiss => 2

/-- The responses of R101 to R105, by their fields. -/
inductive Response where
  | translated (outcome : Path) (frame : Frame) (addr : Addr) (value : Byte) (content : List Byte)
  | initDone (policy : Policy) (numFrames : BitVec 9)
  | summary (errCode : ErrCode) (halted err : Bool) (policy : Policy) (numFrames : BitVec 9)
      (total pageFaults tlbHits tlbMisses : Nat)
  | probe (page : Page) (found : Option Frame)
  | error (code : ErrCode)
deriving DecidableEq, Repr

/-- R106: content bytes 4i, 4i+1, 4i+2, 4i+3, the lowest-addressed in the least significant lane. -/
def packWord (content : List Byte) (i : Nat) : Word :=
  content.getD (4 * i + 3) 0 ++ content.getD (4 * i + 2) 0 ++ content.getD (4 * i + 1) 0 ++ content.getD (4 * i) 0

/-- The 64 content words of a TRANSLATED response (R101, R106). -/
def packContent (content : List Byte) : List Word := (List.range 64).map (packWord content)

/-- The words of a response, the header first: R101 (66 words), R102, R103 (5 words), R104, R105. -/
def Response.words : Response → List Word
  | .translated outcome frame addr value content =>
      (0x1#4 ++ pathBits outcome ++ 0#2 ++ frame ++ addr) :: (0#24 ++ value) :: packContent content
  | .initDone policy numFrames => [0x2#4 ++ 0#17 ++ policyBits policy ++ numFrames]
  | .summary errCode halted err policy numFrames total pageFaults tlbHits tlbMisses =>
      [0x3#4 ++ errBits errCode ++ BitVec.ofBool halted ++ BitVec.ofBool err ++ 0#11 ++ policyBits policy ++ numFrames,
        BitVec.ofNat 32 total, BitVec.ofNat 32 pageFaults, BitVec.ofNat 32 tlbHits, BitVec.ofNat 32 tlbMisses]
  | .probe page found => [0x4#4 ++ 0#4 ++ BitVec.ofBool found.isSome ++ 0#7 ++ page ++ found.getD 0]
  | .error code => [0xF#4 ++ errBits code ++ 0#24]

end Sys2Proof.Machine
end

