-- ==== Sys2Proof/Machine/Ops.lean ====
section
/-!
DEFINITION. The named operations: byte memories and the ports (R13, R63 to R66), the TLB (R130 to R132), the page table
(R150 to R152), the replacement selector (R170 to R177), the response and the error entry (R100, R262), and the start
of a run, which INIT and reset share (R50, R230, R290).
-/

namespace Sys2Proof.Machine

/-! ### Byte memories -/

/-- The byte written at `a`, if any. -/
def Memory.read? (m : Memory) (a : Nat) : Option Byte := m.lookup a

/-- The cells of `data` at `a`, `a+1`, ... (MemWrite of R13). -/
def cellsAt (a : Nat) : List Byte → Memory
  | [] => []
  | b :: rest => (a, b) :: cellsAt (a + 1) rest

/-- MemWrite (R13): `data` at `a, a+1, ...`, all else kept. -/
def Memory.write (m : Memory) (a : Nat) (data : List Byte) : Memory :=
  m.filter (fun c => decide (c.1 < a)) ++ cellsAt a data ++ m.filter (fun c => decide (a + data.length ≤ c.1))

/-- The memory that holds the listed bytes, a later one of the same address winning. -/
def Memory.ofCells (cells : List Host.Cell) : Memory := cells.foldl (fun m c => m.write c.1 [c.2]) []

/-! ### Frame store -/

/-- The address of byte 0 of a frame (R31). -/
def frameBase (f : Frame) : Nat := f.toNat * 256

/-- The byte of FS at `a`: the byte written there, else the draw FRAME_INIT in force (R31, U2). -/
def fsByte (s : State) (a : Nat) : Byte := (s.fs.read? a).getD (Config.frameInit s.fsDraw a)

/-- MemRead(FS, f*256, 256), the content of a frame (R63, R206). -/
def frameContent (s : State) (f : Frame) : List Byte := (List.range 256).map fun k => fsByte s (frameBase f + k)

/-- MemWrite(FS, f*256, 256, data), the hard-miss install (R63, R204). -/
def installPage (f : Frame) (data : List Byte) (s : State) : State := { s with fs := s.fs.write (frameBase f) data }

/-! ### Backing-store port and trace port -/

/-- The byte of BS at `a` (R64). -/
def bsByte (s : State) (a : Nat) : Byte := (s.bs.read? a).getD (Config.backingStore a)

/-- The 256 bytes BS[p*256 .. p*256+255] (R65). -/
def bsPage (s : State) (p : Page) : List Byte := (List.range 256).map fun k => bsByte s (p.toNat * 256 + k)

/-- The port will never answer the coming read (U8). -/
def bsSilent (s : State) : Bool := s.bsAnswers.head? == some .silent

/-- The coming read fails: the port's known answer says so, or no answer is known and the draw BS_FAIL does (R65). -/
def bsReadFails (s : State) : Bool :=
  match s.bsAnswers with
  | [] => Config.bsFails s.bsReads
  | a :: _ => a != .ok

/-- A read was made: its answer is used up. No architectural state changes. -/
def bsReadDone (s : State) : State := { s with bsAnswers := s.bsAnswers.tail, bsReads := s.bsReads + 1 }

/-- The page a trace entry names (R176: `TraceRead(j) >> 8`). -/
def tracePage (s : State) (j : Nat) : Option Page := (s.trace[j]?).map pageOf

/-! ### Responses, errors, the start of a run -/

/-- `respond R` (R13, R100): the response's words leave on the response channel. -/
def respond (r : Response) (s : State) : State := { s with sent := s.sent ++ [r.words] }

/-- Error entry, on_error(c, fatal) of R262: this is `raise CmdError` (not fatal) and `raise Fatal`. It is taken from the
state before the command. -/
def raiseError (code : ErrCode) (fatal : Bool) (s : State) : State :=
  respond (.error code) (haltIf fatal (latchError code s))

/-- BS of the run that starts: what the host has provided for it, else as it is (R292). -/
def nextBs (s : State) : Memory :=
  match s.nextFill with
  | none => s.bs
  | some f => Memory.ofCells f.bytes

/-- TRACE of the run that starts: what the host has provided for it, else as it is (R292). -/
def nextTrace (s : State) : List Addr :=
  match s.nextFill with
  | none => s.trace
  | some f => f.trace

/-- The start of a run (R230, R50): the configuration as given, everything else at its reset value, FS a new draw, and
the memories outside as the host has filled them by then (R292, R293; log entry 11). It is also the only return from an
error (R265). -/
def startRun (numFrames : BitVec 9) (policy : Policy) (s : State) : State :=
  { s with
    numFrames := numFrames
    policy := policy
    halted := false
    err := false
    errCode := .none
    total := 0
    pageFaults := 0
    tlbHits := 0
    tlbMisses := 0
    tlbq := []
    pt := Vector.replicate 256 none
    fs := []
    owner := Vector.replicate 256 none
    cursor := 0
    filled := 0
    lruq := []
    fsDraw := s.fsDraw + 1
    bs := nextBs s
    trace := nextTrace s
    nextFill := none }

/-! ### TLB -/

/-- The frame TLBQ holds for a page, if any (R130, R133). -/
def tlbFind (s : State) (p : Page) : Option Frame := s.tlbq.lookup p

/-- `TLBQ.remove(e => e.page = page)` (R11). -/
def dropPage (q : List (Page × Frame)) (p : Page) : List (Page × Frame) := q.filter fun e => e.1 != p

/-- The pair of a hit becomes the most recently used (R130). -/
def tlbPromote (p : Page) (f : Frame) (s : State) : State := { s with tlbq := dropPage s.tlbq p ++ [(p, f)] }

/-- TLB_lookup (R130): a hit becomes the most recently used pair; a miss changes nothing. -/
def tlbLookup (p : Page) (s : State) : Option Frame × State :=
  match tlbFind s p with
  | some f => (some f, tlbPromote p f s)
  | none => (none, s)

/-- TLB_insert on the sequence (R131). -/
def insertPair (q : List (Page × Frame)) (p : Page) (f : Frame) : List (Page × Frame) :=
  if (q.lookup p).isSome then dropPage q p ++ [(p, f)]
  else if q.length = Config.tlbEntries then q.tail ++ [(p, f)]
  else q ++ [(p, f)]

/-- TLB_insert (R131). -/
def tlbInsert (p : Page) (f : Frame) (s : State) : State := { s with tlbq := insertPair s.tlbq p f }

/-- TLB_invalidate (R132). -/
def tlbInvalidate (p : Page) (s : State) : State := { s with tlbq := dropPage s.tlbq p }

/-! ### Page table -/

/-- PT_lookup (R150). -/
def ptLookup (s : State) (p : Page) : Option Frame := s.pt[p.toNat]

/-- OWNER[f] (R32). -/
def ownerOf (s : State) (f : Frame) : Option Page := s.owner[f.toNat]

/-- `PT[p] <- e` (R29). -/
def setPt (p : Page) (e : Option Frame) (s : State) : State := { s with pt := s.pt.set p.toNat e }

/-- `OWNER[f] <- e` (R32). -/
def setOwner (f : Frame) (e : Option Page) (s : State) : State := { s with owner := s.owner.set f.toNat e }

/-- PT_unmap (R152). -/
def ptUnmap (p : Page) (s : State) : State :=
  match ptLookup s p with
  | some f => setPt p none (setOwner f none s)
  | none => setPt p none s

/-- PT_map (R151): any other page that holds the frame is unmapped and its TLB pair removed first. -/
def ptMap (p : Page) (f : Frame) (s : State) : State :=
  match ownerOf s f with
  | some q =>
      if q ≠ p then setOwner f (some p) (setPt p (some f) (tlbInvalidate q (ptUnmap q s)))
      else setOwner f (some p) (setPt p (some f) s)
  | none => setOwner f (some p) (setPt p (some f) s)

/-! ### Replacement selector -/

/-- The first position `j`, `start ≤ j`, of the listed trace entries whose page is `p`, counting from `start`. -/
def firstUse (p : Page) (start : Nat) : List Addr → Option Nat
  | [] => none
  | a :: rest => if pageOf a = p then some start else firstUse p (start + 1) rest

/-- nextUse (R176): the position of the next reference to the page strictly after `pos`; `none` is INF. EMPTY is no page,
so no entry refers to it (log entry 13). The search runs to the end of TRACE, also past 2^CNT_WIDTH (log entry 23). -/
def nextUse (s : State) (owner : Option Page) (pos : Nat) : Option Nat :=
  match owner with
  | some p => firstUse p (pos + 1) (s.trace.drop (pos + 1))
  | none => none

/-- `d > best` of R175, INF being greater than every natural and not greater than INF. -/
def fartherThan (d best : Option Nat) : Bool :=
  match d, best with
  | none, some _ => true
  | some a, some b => decide (b < a)
  | _, none => false

/-- The distance of a frame in select_OPT (R175). -/
def useOf (s : State) (pos : Nat) (f : Nat) : Option Nat := nextUse s (ownerOf s (BitVec.ofNat 8 f)) pos

/-- One turn of the loop of select_OPT (R175): a strictly farther frame replaces the best so far. -/
def fartherFrame (s : State) (pos : Nat) (best f : Nat) : Nat :=
  if fartherThan (useOf s pos f) (useOf s pos best) then f else best

/-- select_OPT (R175): frames in ascending order, so a tie keeps the lower index. -/
def selectOpt (s : State) (pos : Nat) : Frame :=
  BitVec.ofNat 8 ((List.range s.numFrames.toNat).foldl (fartherFrame s pos) 0)

/-- head(LRUQ) (R173); of an empty LRUQ, which R47 excludes, a free value (log entry 12). -/
def lruHead (s : State) : Frame := s.lruq.head?.getD Config.noLruHead

/-- select_victim (R170, R171, R173, R175). -/
def selectVictim (s : State) (pos : Nat) : Frame :=
  match s.policy with
  | .fifo => s.cursor
  | .lru => if isFull s then lruHead s else s.cursor
  | .opt => if isFull s then selectOpt s pos else s.cursor

/-- The cursor advance (R172): `(CURSOR + 1) mod NUM_FRAMES`. -/
def advanceCursor (s : State) : State :=
  { s with cursor := BitVec.ofNat 8 ((s.cursor.toNat + 1) % s.numFrames.toNat) }

/-- FILLED <- FILLED + 1 (R177). -/
def countFill (s : State) : State := { s with filled := s.filled + 1 }

/-- report_access (R174). -/
def reportAccess (f : Frame) (s : State) : State := { s with lruq := (s.lruq.filter fun x => x != f) ++ [f] }

end Sys2Proof.Machine
end

