-- ==== Sys2Proof/Machine/Control.lean ====
section
/-!
DEFINITION. INIT and SUMMARY (46_control.md R230, R231).
-/

namespace Sys2Proof.Machine

/-- INIT nframes, policy (R230): BAD_NUM_FRAMES is checked before BAD_POLICY; it is the way out of HALTED. -/
def execInit (nframes : BitVec 9) (policy : BitVec 2) (s : State) : Host.Outcome State Fault Refusal :=
  if nframes.toNat = 0 ∨ 256 < nframes.toNat then .next (raiseError .badNumFrames false s)
  else match policyOfBits policy with
    | none => .next (raiseError .badPolicy false s)
    | some p => .next (respond (.initDone p nframes) (startRun nframes p s))

/-- SUMMARY (R231): the statistics and the status; no state changes. -/
def execSummary (s : State) : Host.Outcome State Fault Refusal :=
  .next (respond (.summary s.errCode s.halted s.err s.policy s.numFrames s.total s.pageFaults s.tlbHits s.tlbMisses) s)

end Sys2Proof.Machine
end

