-- ==== Sys2Proof/Machine/Probe.lean ====
section
/-!
DEFINITION. The side-effect-free probes PROBE.PT (R153) and PROBE.TLB (R133).
-/

namespace Sys2Proof.Machine

/-- PROBE.PT page (R153). -/
def execProbePt (page : Page) (s : State) : Host.Outcome State Fault Refusal :=
  .next (respond (.probe page (ptLookup s page)) s)

/-- PROBE.TLB page (R133): TLBQ's order does not change. -/
def execProbeTlb (page : Page) (s : State) : Host.Outcome State Fault Refusal :=
  .next (respond (.probe page (tlbFind s page)) s)

end Sys2Proof.Machine
end

