-- ==== Sys2Proof/Machine/Translation.lean ====
section
/-!
DEFINITION. TRANSLATE and the page-fault FSM (45_translation.md), the stages of R201 in its order.
-/

namespace Sys2Proof.Machine

/-- The OPT trace check (R208). -/
def traceCheck (addr : Addr) (s : State) : Option ErrCode :=
  match s.trace[s.total]? with
  | none => some .traceExhausted
  | some a => if a = addr then none else some .traceMismatch

/-- Stage CHECK: the admission of R200, in the order of R263. -/
def admission (addr : Addr) (s : State) : Option ErrCode :=
  if s.halted then some .halted
  else if s.total = 2 ^ s.cntWidth - 1 then some .cntOverflow
  else match s.policy with
    | .fifo => none
    | .lru => none
    | .opt => traceCheck addr s

/-- Stage FAULT_EVICT (R201, R204): the frame's page is unmapped and its TLB pair removed; an EMPTY frame counts as
filled. -/
def evict (f : Frame) (s : State) : State :=
  match ownerOf s f with
  | some q => tlbInvalidate q (ptUnmap q s)
  | none => countFill s

/-- page_fault after the read (R204): evict, install, map, insert, advance the cursor, in this order (R295). -/
def fillFrame (page : Page) (f : Frame) (data : List Byte) (s : State) : State :=
  advanceCursor (tlbInsert page f (ptMap page f (installPage f data (evict f s))))

/-- Stage COMPLETE (R201): report the access, count, read the content, respond with the record (R205, R206). -/
def complete (addr : Addr) (path : Path) (f : Frame) (s : State) : State :=
  let content := frameContent s f
  respond (.translated path f addr (content.getD (offsetOf addr).toNat 0) content)
    (countPath path (reportAccess f s))

/-- Stages FAULT_READ to COMPLETE (R204): a failed read is fatal and leaves everything else as it was (R209, R296); the
victim is chosen from the state before the command (R297, R298). -/
def hardMiss (addr : Addr) (s : State) : State :=
  if bsReadFails s then raiseError .bsError true (bsReadDone s)
  else
    let f := selectVictim s s.total
    complete addr .hardMiss f (fillFrame (pageOf addr) f (bsPage s (pageOf addr)) (bsReadDone s))

/-- The three paths after admission (R200, R202, R203, R204). -/
def resolve (addr : Addr) (s : State) : Host.Outcome State Fault Refusal :=
  match tlbLookup (pageOf addr) s with
  | (some f, s1) => .next (complete addr .tlbHit f s1)
  | (none, s1) =>
    match ptLookup s1 (pageOf addr) with
    | some f => .next (complete addr .softMiss f (tlbInsert (pageOf addr) f s1))
    | none => if bsSilent s1 then .fault .bsPortSilent else .next (hardMiss addr s1)

/-- TRANSLATE addr (R200). -/
def execTranslate (addr : Addr) (s : State) : Host.Outcome State Fault Refusal :=
  match admission addr s with
  | some code => .next (raiseError code false s)
  | none => resolve addr s

end Sys2Proof.Machine
end

