-- ==== Sys2Proof/Machine/Dispatch.lean ====
section
/-!
DEFINITION. One arm per command (R91): the direct call of its meaning.
-/

namespace Sys2Proof.Machine

-- R97: the decoded command runs its own rule.
def exec (i : Instr) (s : State) : Host.Outcome State Fault Refusal :=
  match i with
  | .init nframes policy => Sys2Proof.Machine.execInit nframes policy s
  | .translate addr => Sys2Proof.Machine.execTranslate addr s
  | .summary => Sys2Proof.Machine.execSummary s
  | .probePt page => Sys2Proof.Machine.execProbePt page s
  | .probeTlb page => Sys2Proof.Machine.execProbeTlb page s

end Sys2Proof.Machine
end

