-- ==== Sys2Proof/Machine/Channel.lean ====
section
/-!
DEFINITION. What the block does with the host's next move: a word of the command channel (R90, R97), the reset input
(R290, R291), or the external memories for the next run (R292, R293).
-/

namespace Sys2Proof.Machine

/-- A command word (R97): decoded and run, or refused by name. -/
def runWord (w : Word) (s : State) : Host.Outcome State Fault Refusal :=
  match decode w with
  | .ok i => exec i s
  | .illegalOpcode => .next (raiseError .illegalOpcode false s)
  | .reservedBits => .next (raiseError .reservedBits false s)

/-- The reset input (R290): the state of a successful `INIT 256, FIFO`, and no response. -/
def resetInput (s : State) : State := startRun 256 .fifo s

/-- The host provides BS and TRACE for the next run, which takes them when it starts (`startRun`). No move changes them
within a run (R293, U9; log entry 11). A trace of any length is accepted (log entry 23). -/
def loadMemories (bytes : List Host.Cell) (trace : List Addr) (s : State) : State :=
  { s with nextFill := some { bytes := bytes, trace := trace } }

/-- The host's move is taken from the channel; `rest` are its moves to come. -/
def takeMove (rest : List HostMove) (s : State) : State := { s with host := rest }

/-- The step for one move of the host; with none, the block waits in IDLE and keeps all state (R272). A command
abandoned by reset leaves neither a response nor an effect (R291). -/
def runMove (s : State) : Host.Outcome State Fault Refusal :=
  match s.host with
  | [] => .next s
  | .command w :: rest => runWord w (takeMove rest s)
  | .reset :: rest => .next (resetInput (takeMove rest s))
  | .resetDuring _ :: rest => .next (resetInput (takeMove rest s))
  | .load bytes trace :: rest => .next (loadMemories bytes trace (takeMove rest s))

/-- The host's next move is to send this word, before the moves it already has. -/
def sendWord (w : Word) (s : State) : State := { s with host := .command w :: s.host }

end Sys2Proof.Machine
end

