-- ==== Sys2Proof/Machine/Step.lean ====
section
/-!
DEFINITION. One step of the machine: one move of the host, run to its response (R6, R294).
-/

namespace Sys2Proof.Machine

/-- One atomic step (R6). -/
def step (s : State) : Host.Outcome State Fault Refusal := runMove s

/-- `s` with the command whose bits are `w` as the host's next move, so that the very next step takes and runs it: the
block has no program, the host sends it commands (R38). Log entries 8 and 18. -/
def State.withFetchWord (s : State) (nbits w : Nat) : State := sendWord (BitVec.ofNat 32 (w % 2 ^ nbits)) s

end Sys2Proof.Machine
end

