-- ==== Sys2Proof/Machine/Assembler.lean ====
section
/-!
DEFINITION. The assembler syntax of R107 and the pseudo-commands of R108, for text given as a list of characters. No
semantics depends on it (D34).
-/

namespace Sys2Proof.Machine

/-- A line of the syntax: a command, or a pseudo-command of R108. -/
inductive AsmLine where
  | plain (i : Instr)
  /-- `RESET`. -/
  | reset
  /-- `TRANSLATE <page>:<offset>`. -/
  | translateAt (page : Page) (offset : Offset)
  /-- `RUN <a0>, ..., <an-1>`. -/
  | run (addrs : List Addr)
deriving DecidableEq, Repr

/-- The commands a line stands for (R108). -/
def expandLine : AsmLine → List Instr
  | .plain i => [i]
  | .reset => [.init 256 (policyBits .fifo)]
  | .translateAt page offset => [.translate (page ++ offset)]
  | .run addrs => addrs.map .translate ++ [.summary]

/-- The text before a `;` comment. -/
def stripComment (text : List Char) : List Char := text.takeWhile (· != ';')

/-- Is this character white space? -/
def isBlank (c : Char) : Bool := c == ' ' || c == '\t'

/-- The text without the white space at its two ends. -/
def trimBlanks (text : List Char) : List Char :=
  ((text.dropWhile isBlank).reverse.dropWhile isBlank).reverse

/-- The value of a digit below 16. -/
def digitValue (c : Char) : Option Nat :=
  if '0' ≤ c ∧ c ≤ '9' then some (c.toNat - '0'.toNat)
  else if 'a' ≤ c ∧ c ≤ 'f' then some (c.toNat - 'a'.toNat + 10)
  else if 'A' ≤ c ∧ c ≤ 'F' then some (c.toNat - 'A'.toNat + 10)
  else none

/-- The number of digits in a base, the most significant first; `acc` is what stands before them. -/
def readDigits (base acc : Nat) : List Char → Option Nat
  | [] => some acc
  | c :: rest =>
    match digitValue c with
    | some d => if d < base then readDigits base (base * acc + d) rest else none
    | none => none

/-- R107: "Numbers are decimal, or hexadecimal with a `0x` prefix." -/
def readNumber : List Char → Option Nat
  | [] => none
  | ['0', 'x'] => none
  | '0' :: 'x' :: digits => readDigits 16 0 digits
  | digits => readDigits 10 0 digits

/-- A number below the bound, as a field of `w` bits. -/
def readField (w bound : Nat) (text : List Char) : Option (BitVec w) :=
  match readNumber (trimBlanks text) with
  | some n => if n < bound then some (BitVec.ofNat w n) else none
  | none => none

/-- "exactly one of the three tokens" (R107). -/
def readPolicy (text : List Char) : Option Policy :=
  if trimBlanks text = ['F', 'I', 'F', 'O'] then some .fifo
  else if trimBlanks text = ['L', 'R', 'U'] then some .lru
  else if trimBlanks text = ['O', 'P', 'T'] then some .opt
  else none

/-- The parts of a text between the separators. -/
def splitAt (sep : Char) (text : List Char) : List (List Char) := text.splitOn sep

/-- All of them, or none if one is missing. -/
def allOrNone {α : Type} : List (Option α) → Option (List α)
  | [] => some []
  | none :: _ => none
  | some a :: rest => (allOrNone rest).map (a :: ·)

/-- The operand of TRANSLATE: an address (R107), or page:offset (R108). -/
def readTranslate (text : List Char) : Option AsmLine :=
  match splitAt ':' text with
  | [a] => (readField 16 65536 a).map fun addr => .plain (.translate addr)
  | [p, o] =>
    match readField 8 256 p, readField 8 256 o with
    | some page, some offset => some (.translateAt page offset)
    | _, _ => none
  | _ => none

/-- The operands of INIT: 1..256 and a policy token (R107). -/
def readInit (text : List Char) : Option AsmLine :=
  match splitAt ',' text with
  | [n, p] =>
    match readField 9 257 n, readPolicy p with
    | some nframes, some policy =>
      if nframes = 0 then none else some (.plain (.init nframes (policyBits policy)))
    | _, _ => none
  | _ => none

/-- A mnemonic alone on its line. -/
def noOperand (text : List Char) (line : AsmLine) : Option AsmLine := if text = [] then some line else none

/-- One line of the syntax of R107 and R108; an operand outside its range is refused. -/
def readLine (text : List Char) : Option AsmLine :=
  let line := trimBlanks (stripComment text)
  let mnemonic := line.takeWhile fun c => !isBlank c
  let operands := trimBlanks (line.dropWhile fun c => !isBlank c)
  if mnemonic = "INIT".toList then readInit operands
  else if mnemonic = "TRANSLATE".toList then readTranslate operands
  else if mnemonic = "SUMMARY".toList then noOperand operands (.plain .summary)
  else if mnemonic = "PROBE.PT".toList then (readField 8 256 operands).map fun p => .plain (.probePt p)
  else if mnemonic = "PROBE.TLB".toList then (readField 8 256 operands).map fun p => .plain (.probeTlb p)
  else if mnemonic = "RESET".toList then noOperand operands .reset
  else if mnemonic = "RUN".toList then
    (allOrNone ((splitAt ',' operands).map (readField 16 65536))).map .run
  else none

/-- The command words a line of text stands for. -/
def assembleLine (text : List Char) : Option (List Word) := (readLine text).map fun l => (expandLine l).map encode

end Sys2Proof.Machine
end

