-- ==== Sys2Proof/Machine/HostView.lean ====
section
/-!
DEFINITION. What the spec says the host makes of the responses: the rates (R232), and for reference the rendered lines
(R233) and the exit status (R234). The block computes none of it.
-/

namespace Sys2Proof.Machine

/-- A share of the total, 0 when the total is 0 (R232). -/
def rateOf (part total : Nat) : Rat := if total = 0 then 0 else (part : Rat) / (total : Rat)

/-- pageFaultRate and tlbHitRate from the five words of a SUMMARY response (R103, R232). -/
def ratesOf : List Word → Option (Rat × Rat)
  | [_, total, faults, hits, _] => some (rateOf faults.toNat total.toNat, rateOf hits.toNat total.toNat)
  | _ => none

/-- A rate in thousandths (R232, "each to 3 decimal places"): the nearest one, so 0 for the rate 0; halfway between two,
under the host's open rounding RATE_ROUNDING. Log entry 19. -/
def renderedRate (r : Rat) : Nat :=
  let low := (1000 * r).floor
  let rest := 1000 * r - low
  if rest < 1 / 2 then low.toNat
  else if 1 / 2 < rest then low.toNat + 1
  else if Config.rateRounding r then low.toNat + 1 else low.toNat

/-- One upper-case hexadecimal digit. -/
def hexDigit (n : Nat) : Char := "0123456789ABCDEF".toList.getD n '0'

/-- The hexadecimal dump of R233: two digits a byte, the high nibble first, byte 0 first (D29). -/
def hexDump (content : List Byte) : List Char :=
  content.flatMap fun b => [hexDigit (b.toNat / 16), hexDigit (b.toNat % 16)]

/-- The content bytes of a TRANSLATED response, in address order (R101, R106). -/
def contentOf (words : List Word) : List Byte :=
  (words.drop 2).flatMap fun w => [w.extractLsb' 0 8, w.extractLsb' 8 8, w.extractLsb' 16 8, w.extractLsb' 24 8]

/-- The line `address, signedByteValue, frameIndex, HEX` of a TRANSLATED response (R233). -/
def recordLine : List Word → Option (List Char)
  | w0 :: w1 :: rest =>
    if w0.extractLsb' 28 4 = 0x1 then
      some ((toString (w0.extractLsb' 0 16).toNat).toList ++ [',', ' ']
        ++ (toString (signedValue (w1.extractLsb' 0 8))).toList ++ [',', ' ']
        ++ (toString (w0.extractLsb' 16 8).toNat).toList ++ [',', ' '] ++ hexDump (contentOf (w0 :: w1 :: rest)))
    else none
  | _ => none

/-- The six summary values in the order of R233 (C1): total addresses, page faults, page fault rate, TLB hits, TLB
misses, TLB hit rate. -/
def summaryValues : List Word → Option (List Rat)
  | [_, total, faults, hits, misses] =>
    some [total.toNat, faults.toNat, rateOf faults.toNat total.toNat, hits.toNat, misses.toNat,
      rateOf hits.toNat total.toNat]
  | _ => none

/-- Is the exit status nonzero after an ERROR response with this code (R234)? Nonzero for an argument-validation failure
or a fatal I/O error, zero with no error. R234 does not say it for the other six codes: there it is a free value, the
model's choice (log entry 24). -/
def exitsNonzero : ErrCode → Bool
  | .none => false
  | .badNumFrames => true
  | .badPolicy => true
  | .bsError => true
  | .illegalOpcode => Config.otherExit (errBits .illegalOpcode)
  | .reservedBits => Config.otherExit (errBits .reservedBits)
  | .halted => Config.otherExit (errBits .halted)
  | .cntOverflow => Config.otherExit (errBits .cntOverflow)
  | .traceExhausted => Config.otherExit (errBits .traceExhausted)
  | .traceMismatch => Config.otherExit (errBits .traceMismatch)

end Sys2Proof.Machine
end

