-- ==== Sys2Proof/Safety.lean ====
section
/-!
DEFINITION. What counts as a sound state, in the terms the statements use: the invariants of 10_state.md R41 to R49 and
the ranges of R21, R24, R25, R33, R34, the agreement of resident frames with the backing store (R75), and which steps
end a run early.
-/

namespace Sys2Proof.Machine

/-- The ranges of the registers: NUM_FRAMES (R21), CURSOR (R33), FILLED (R34), CNT_WIDTH (R9), TOTAL (R25). -/
structure RangesOk (s : State) : Prop where
  frames_pos : 1 ≤ s.numFrames.toNat
  frames_le : s.numFrames.toNat ≤ 256
  cursor_lt : s.cursor.toNat < s.numFrames.toNat
  filled_le : s.filled.toNat ≤ s.numFrames.toNat
  width_pos : 1 ≤ s.cntWidth
  width_le : s.cntWidth ≤ 32
  total_fits : s.total < 2 ^ s.cntWidth

/-- ERR, ERRCODE and HALTED agree (R24, R254, R264): a code is held exactly when ERR is set, and HALTED implies ERR. -/
structure StatusOk (s : State) : Prop where
  code_iff : s.err = true ↔ s.errCode ≠ .none
  halted_err : s.halted = true → s.err = true

/-- R41 and R42: at most 16 pairs, one a page, each agreeing with the page table. -/
structure TlbOk (s : State) : Prop where
  length_le : s.tlbq.length ≤ 16
  pages_nodup : (s.tlbq.map Prod.fst).Nodup
  agrees : ∀ e ∈ s.tlbq, ptLookup s e.1 = some e.2

/-- R43, R44 and R45: ownership is exclusive, entries name frames below NUM_FRAMES, OWNER is the inverse of PT. -/
structure PageTableOk (s : State) : Prop where
  exclusive : ∀ p q f, ptLookup s p = some f → ptLookup s q = some f → p = q
  in_range : ∀ p f, ptLookup s p = some f → f.toNat < s.numFrames.toNat
  inverse : ∀ f p, ownerOf s f = some p ↔ ptLookup s p = some f

/-- R46: the occupied frames are exactly 0..FILLED-1, and CURSOR is FILLED while not FULL. -/
structure FillOk (s : State) : Prop where
  occupied_iff : ∀ f, (ownerOf s f).isSome = true ↔ f.toNat < s.filled.toNat
  cursor_eq : isFull s = false → s.cursor.toNat = s.filled.toNat

/-- R47: LRUQ holds each occupied frame exactly once and no other frame. -/
structure LruOk (s : State) : Prop where
  nodup : s.lruq.Nodup
  mem_iff : ∀ f, f ∈ s.lruq ↔ (ownerOf s f).isSome = true

/-- R48: the counters' invariants. -/
structure CountersOk (s : State) : Prop where
  total_eq : s.total = s.tlbHits + s.tlbMisses
  faults_le : s.pageFaults ≤ s.tlbMisses
  filled_le : s.filled.toNat ≤ s.pageFaults

/-- R49: with at most 16 frames the TLB holds every mapped page. -/
def SmallTlbComplete (s : State) : Prop :=
  s.numFrames.toNat ≤ 16 → ∀ p, (tlbFind s p).isSome = (ptLookup s p).isSome

/-- The byte memories are in canonical form, and FS holds bytes of existing frames only (R31, R62). -/
structure MemoryOk (s : State) : Prop where
  fs_wf : s.fs.wf
  bs_wf : s.bs.wf
  fs_in_range : ∀ c ∈ s.fs, c.1 < s.numFrames.toNat * 256

/-- R75: every byte of a resident frame has been written and equals its backing-store byte. -/
def FramesMatchStore (s : State) : Prop :=
  ∀ p f, ptLookup s p = some f → ∀ k, k < 256 → s.fs.read? (frameBase f + k) = some (bsByte s (p.toNat * 256 + k))

/-- R172 and R177 over a run: CURSOR counts the hard misses modulo NUM_FRAMES, FILLED counts them up to NUM_FRAMES. -/
structure RoundRobin (s : State) : Prop where
  cursor_eq : s.cursor.toNat = s.pageFaults % s.numFrames.toNat
  filled_eq : s.filled.toNat = min s.pageFaults s.numFrames.toNat

/-- A sound state: all of the above. -/
structure Inv (s : State) : Prop where
  ranges : RangesOk s
  status : StatusOk s
  tlb : TlbOk s
  pageTable : PageTableOk s
  fill : FillOk s
  lru : LruOk s
  counters : CountersOk s
  smallTlb : SmallTlbComplete s
  memory : MemoryOk s
  frames : FramesMatchStore s
  roundRobin : RoundRobin s

/-- Fairness of the backing-store port (R299): it answers every read. -/
def PortAnswers (s : State) : Prop := BsAnswer.silent ∉ s.bsAnswers

/-- A TRANSLATE of this address passes the admission checks (R200, R208). -/
def Admitted (s : State) (a : Addr) : Prop :=
  s.halted = false ∧ s.total ≠ 2 ^ s.cntWidth - 1 ∧ (s.policy = .opt → s.trace[s.total]? = some a)

/-- The port returns the page at the coming read (R65). -/
def ReadWillSucceed (s : State) : Prop :=
  s.bsAnswers.head? = some .ok ∨ (s.bsAnswers = [] ∧ Config.bsFails s.bsReads = false)

/-- The port answers `fail` to the coming read (R65). -/
def ReadWillFail (s : State) : Prop :=
  s.bsAnswers.head? = some .fail ∨ (s.bsAnswers = [] ∧ Config.bsFails s.bsReads = true)

/-- Neither the TLB nor the page table holds the page of this address, so a TRANSLATE of it is a hard miss (R204). -/
def Misses (s : State) (a : Addr) : Prop := tlbFind s (pageOf a) = none ∧ ptLookup s (pageOf a) = none

/-- A successful INIT of this configuration (R255, R256): the word `w` is `INIT nframes, policy` with legal operands. -/
def IsLegalInit (w : Word) : Prop :=
  ∃ n p, decode w = .ok (.init n p) ∧ 1 ≤ n.toNat ∧ n.toNat ≤ 256 ∧ p.toNat < 3

/-- The host's next move starts a new run: the reset input, or a successful INIT (R15). -/
def StartsRun (s : State) : Prop :=
  (∃ rest, s.host = .reset :: rest) ∨ (∃ w rest, s.host = .resetDuring w :: rest) ∨
    (∃ w rest, s.host = .command w :: rest ∧ IsLegalInit w)

/-- What R262 lets a command error change: ERR, ERRCODE if it was the first, and the response `w`. -/
def withError (code : ErrCode) (w : Word) (s : State) : State :=
  { s with err := true, errCode := if s.err then s.errCode else code, sent := s.sent ++ [[w]] }

/-- The state a run starts in (R50), with this configuration: every field of the block at its reset value, FS a new
draw, BS and TRACE as the host has filled them by then, and the rest of the outside world as it is in `s`. -/
def freshRun (n : BitVec 9) (p : Policy) (s : State) : State :=
  { State.reset with
    numFrames := n, policy := p, fsDraw := s.fsDraw + 1
    bs := nextBs s, bsAnswers := s.bsAnswers, bsReads := s.bsReads, trace := nextTrace s, cntWidth := s.cntWidth
    host := s.host, sent := s.sent }

/-- The record a TRANSLATE delivers: outcome, frame, address, the byte at the offset, the content (R101, R206). -/
def record (o : Path) (f : Frame) (a : Addr) (content : List Byte) : List Word :=
  (Response.translated o f a (content.getD (a.toNat % 256) 0) content).words

end Sys2Proof.Machine
end

