-- ==== Sys2Proof/Certificates/Slice0/Obligations.lean ====
section
/-!
DEFINITION. The statements for the provers. Each is about the machine, in every state that meets its hypotheses; the
docstring names the rule it formalises.
-/

open Sys2Proof Sys2Proof.Machine

/-! ### Encoding -/

/-- R92 to R97: decoding the word of a command gives the command back, every operand at every value. -/
def Obligations.DecodeOfEncode : Prop := ∀ i : Instr, decode (encode i) = .ok i

/-- R92 to R97: a word that decodes is the word of the command it decodes to, so each legal word has one meaning. -/
def Obligations.EncodeOfDecode : Prop := ∀ (w : Word) (i : Instr), decode w = .ok i → encode i = w

/-- R97, R252, R253: which words are refused, and by which name; OP is bits 31:28, read as `w / 2^28`, and a field
`hi:lo` is read as `w / 2^lo mod 2^(hi-lo+1)`. -/
def Obligations.DecodeRefusesByName : Prop :=
  ∀ w : Word,
    (decode w = .illegalOpcode ↔ (w.toNat / 2 ^ 28 = 0 ∨ 6 ≤ w.toNat / 2 ^ 28)) ∧
    (decode w = .reservedBits ↔
      ((w.toNat / 2 ^ 28 = 1 ∧ w.toNat / 2 ^ 11 % 2 ^ 17 ≠ 0) ∨
       (w.toNat / 2 ^ 28 = 2 ∧ w.toNat / 2 ^ 16 % 2 ^ 12 ≠ 0) ∨
       (w.toNat / 2 ^ 28 = 3 ∧ w.toNat % 2 ^ 28 ≠ 0) ∨
       (w.toNat / 2 ^ 28 = 4 ∧ w.toNat / 2 ^ 8 % 2 ^ 20 ≠ 0) ∨
       (w.toNat / 2 ^ 28 = 5 ∧ w.toNat / 2 ^ 8 % 2 ^ 20 ≠ 0)))

/-- The words ENC-1 to ENC-14 of 95_test_vectors.md, written out from R92 to R96. -/
def Obligations.DecodeSampleWords : Prop :=
  decode 0x10000002 = .ok (.init 2 0) ∧ decode 0x10000100 = .ok (.init 256 0) ∧
  decode 0x10000402 = .ok (.init 2 2) ∧ decode 0x2000FFFF = .ok (.translate 0xFFFF) ∧
  decode 0x30000000 = .ok .summary ∧ decode 0x400000FF = .ok (.probePt 255) ∧
  decode 0x50000010 = .ok (.probeTlb 16) ∧ decode 0x00000000 = .illegalOpcode ∧
  decode 0x60000000 = .illegalOpcode ∧ decode 0xF0000000 = .illegalOpcode ∧
  decode 0x20010000 = .reservedBits ∧ decode 0x30000001 = .reservedBits ∧
  decode 0x40000100 = .reservedBits ∧ decode 0x50001000 = .reservedBits ∧
  decode 0x10000800 = .reservedBits ∧ decode 0x1FFFFFFF = .reservedBits

/-- R108: the pseudo-commands stand for the commands given there, and R107: an operand outside its range is refused. -/
def Obligations.AssemblerExpandsAndRefuses : Prop :=
  (expandLine .reset).map encode = [0x10000100] ∧
  (∀ (p : Page) (o : Offset), expandLine (.translateAt p o) = [.translate (BitVec.ofNat 16 (p.toNat * 256 + o.toNat))]) ∧
  (∀ as : List Addr, expandLine (.run as) = as.map Instr.translate ++ [Instr.summary]) ∧
  (∀ (n : BitVec 9) (p : BitVec 2), (n.toNat < 1 ∨ 256 < n.toNat ∨ p.toNat = 3) → assemble (.init n p) = none) ∧
  (∀ (n : BitVec 9) (p : BitVec 2), 1 ≤ n.toNat → n.toNat ≤ 256 → p.toNat < 3 →
    assemble (.init n p) = some (encode (.init n p)))

/-! ### The step -/

/-- R97: a word that decodes to a command runs that command's rule. The step takes the word off the channel and does
nothing else around `exec`. That the channel is a list of host moves in the state is the model's choice (log entry 8). -/
def Obligations.StepRunsDecodedCommand : Prop :=
  ∀ (s : State) (w : Word) (rest : List HostMove) (i : Instr),
    s.host = .command w :: rest → decode w = .ok i → step s = exec i { s with host := rest }

/-- R252, R253, R262: a word with an illegal OP answers ILLEGAL_OPCODE (0xF1000000), one with a legal OP and a nonzero
reserved bit answers RESERVED_BITS (0xF2000000), in either phase, and only ERR and ERRCODE change. -/
def Obligations.UndecodableWordsAnswerErrors : Prop :=
  ∀ (s : State) (w : Word) (rest : List HostMove), s.host = .command w :: rest →
    ((w.toNat / 2 ^ 28 = 0 ∨ 6 ≤ w.toNat / 2 ^ 28) →
      step s = .next (withError .illegalOpcode 0xF1000000 { s with host := rest })) ∧
    (((w.toNat / 2 ^ 28 = 1 ∧ w.toNat / 2 ^ 11 % 2 ^ 17 ≠ 0) ∨
      (w.toNat / 2 ^ 28 = 2 ∧ w.toNat / 2 ^ 16 % 2 ^ 12 ≠ 0) ∨
      (w.toNat / 2 ^ 28 = 3 ∧ w.toNat % 2 ^ 28 ≠ 0) ∨
      (w.toNat / 2 ^ 28 = 4 ∧ w.toNat / 2 ^ 8 % 2 ^ 20 ≠ 0) ∨
      (w.toNat / 2 ^ 28 = 5 ∧ w.toNat / 2 ^ 8 % 2 ^ 20 ≠ 0)) →
      step s = .next (withError .reservedBits 0xF2000000 { s with host := rest }))

/-- R272: with no command sent the block is idle and keeps all state. That idling is a step of its own is the model's
choice (log entry 8). -/
def Obligations.IdleKeepsState : Prop := ∀ s : State, s.host = [] → step s = .next s

/-- R290: the reset input puts every state element at its reset value; FS is a new draw; no response. The host and
the responses already delivered are not the block's. The move `reset`, the count of draws `fsDraw` and the taking of what
the host has provided for the run are the model's choice (log entries 10, 5 and 11). -/
def Obligations.ResetInputResets : Prop :=
  ∀ (s : State) (rest : List HostMove), s.host = .reset :: rest →
    step s = .next (freshRun 256 .fifo { s with host := rest })

/-- R291: a command abandoned by reset has no response and no effect: the reset state replaces everything. The move
`resetDuring`, `fsDraw` and the host's filling are the model's choice (log entries 10, 5 and 11). -/
def Obligations.ResetAbandonsCommand : Prop :=
  ∀ (s : State) (w : Word) (rest : List HostMove), s.host = .resetDuring w :: rest →
    step s = .next (freshRun 256 .fifo { s with host := rest })

/-- R292, R293, R9: BS and TRACE are constant in a run, from reset or INIT to its end, and a run starts with what the
host has provided for it by then, else with what they were. That what it provides waits in `nextFill` for the start is
the model's choice (log entry 11). -/
def Obligations.MemoriesFilledOnlyBeforeRun : Prop :=
  (∀ s t : State, step s = .next t →
    (¬ StartsRun s → t.bs = s.bs ∧ t.trace = s.trace) ∧
    (StartsRun s → s.nextFill = none → t.bs = s.bs ∧ t.trace = s.trace ∧ t.nextFill = none) ∧
    (∀ f, StartsRun s → s.nextFill = some f →
      t.bs = Memory.ofCells f.bytes ∧ t.trace = f.trace ∧ t.nextFill = none)) ∧
  (∀ (s : State) (bytes : List Host.Cell) (tr : List Addr) (rest : List HostMove), s.host = .load bytes tr :: rest →
    step s = .next { s with host := rest, nextFill := some { bytes := bytes, trace := tr } })

/-- R100: exactly one response a command, whose kind fixes its length: TRANSLATED 66 words, SUMMARY 5, INIT_DONE, PROBE
and ERROR 1; no other kind is sent. -/
def Obligations.OneResponsePerCommand : Prop :=
  ∀ (s t : State) (w : Word) (rest : List HostMove), s.host = .command w :: rest → step s = .next t →
    t.host = rest ∧ ∃ (h : Word) (ws : List Word), t.sent = s.sent ++ [h :: ws] ∧
      ((h.toNat / 2 ^ 28 = 1 ∧ ws.length = 65) ∨ (h.toNat / 2 ^ 28 = 2 ∧ ws.length = 0) ∨
       (h.toNat / 2 ^ 28 = 3 ∧ ws.length = 4) ∨ (h.toNat / 2 ^ 28 = 4 ∧ ws.length = 0) ∨
       (h.toNat / 2 ^ 28 = 15 ∧ ws.length = 0))

/-- Progress (R299): if the port answers, every step goes on. How the port's answers and the host's moves are held is
the model's choice (log entries 3, 4, 8 and 11). -/
def Obligations.StepGoesOnWhenPortAnswers : Prop := ∀ s : State, PortAnswers s → ∃ t, step s = .next t

/-! ### Reset and invariants -/

/-- R50: the reset values the spec gives. That FS is the draw numbered 0 is the model's choice (log entry 5). -/
def Obligations.ResetValues : Prop :=
  State.reset.numFrames = 256 ∧ State.reset.policy = .fifo ∧ State.reset.halted = false ∧ State.reset.err = false ∧
  State.reset.errCode = .none ∧ State.reset.total = 0 ∧ State.reset.pageFaults = 0 ∧ State.reset.tlbHits = 0 ∧
  State.reset.tlbMisses = 0 ∧ State.reset.tlbq = [] ∧ (∀ p, ptLookup State.reset p = none) ∧
  (∀ f, ownerOf State.reset f = none) ∧ State.reset.cursor = 0 ∧ State.reset.filled = 0 ∧ State.reset.lruq = [] ∧
  (∀ a, fsByte State.reset a = Config.frameInit 0 a)

/-- R41 to R49 hold after reset, with the ranges, the status rule, R75 and the round-robin count. -/
def Obligations.ResetIsSound : Prop := Inv State.reset

/-- R41 to R49: every step keeps the sound states, with the ranges, the status rule, R75 and the round-robin count. -/
def Obligations.StepKeepsSoundStates : Prop := ∀ s t : State, Inv s → step s = .next t → Inv t

/-- R41 alone: at most 16 pairs and no page twice, kept from any state that has it. -/
def Obligations.StepKeepsTlbShape : Prop :=
  ∀ s t : State, s.tlbq.length ≤ 16 → (s.tlbq.map Prod.fst).Nodup → step s = .next t →
    t.tlbq.length ≤ 16 ∧ (t.tlbq.map Prod.fst).Nodup

/-- R48 alone: the counters' invariants, kept from any state that has them. -/
def Obligations.StepKeepsCounterRelations : Prop := ∀ s t : State, CountersOk s → step s = .next t → CountersOk t

/-- R24: the status registers stay consistent from any state where they are. -/
def Obligations.StepKeepsStatusConsistent : Prop := ∀ s t : State, StatusOk s → step s = .next t → StatusOk t

/-- The byte memories stay in canonical form, from any state where they are. The form is the model's choice (log entries
2 and 5). -/
def Obligations.StepKeepsMemoriesCanonical : Prop :=
  ∀ s t : State, s.fs.wf → s.bs.wf → step s = .next t → t.fs.wf ∧ t.bs.wf

/-! ### INIT -/

/-- R230, R50: an INIT with legal operands starts a new run in the given configuration and answers INIT_DONE (R102). The
count of draws `fsDraw` and the taking of what the host has provided for the run are the model's choice (log entries 5
and 11). -/
def Obligations.InitStartsRun : Prop :=
  ∀ (s : State) (n : BitVec 9) (p : BitVec 2) (pol : Policy), 1 ≤ n.toNat → n.toNat ≤ 256 →
    ((p.toNat = 0 ∧ pol = .fifo) ∨ (p.toNat = 1 ∧ pol = .lru) ∨ (p.toNat = 2 ∧ pol = .opt)) →
    ∃ w : Word, w.toNat = 0x20000000 + p.toNat * 2 ^ 9 + n.toNat ∧
      exec (.init n p) s = .next { freshRun n pol s with sent := s.sent ++ [[w]] }

/-- R255, R256: INIT with NFRAMES outside 1..256 answers BAD_NUM_FRAMES whatever POLICY is, and with POLICY = 3 and a
legal NFRAMES BAD_POLICY; the old configuration and run stay. -/
def Obligations.InitRefusesBadOperands : Prop :=
  ∀ (s : State) (n : BitVec 9) (p : BitVec 2),
    ((n.toNat = 0 ∨ 256 < n.toNat) → exec (.init n p) s = .next (withError .badNumFrames 0xF3000000 s)) ∧
    (1 ≤ n.toNat → n.toNat ≤ 256 → p.toNat = 3 → exec (.init n p) s = .next (withError .badPolicy 0xF4000000 s))

/-- R290: the reset input leaves exactly the state that a successful INIT 256, FIFO leaves, but for the response. The
move `reset` is the model's choice (log entry 10). -/
def Obligations.InitDefaultsEqualReset : Prop :=
  ∀ (s : State) (rest : List HostMove), s.host = .reset :: rest →
    ∃ t, exec (.init 256 0) { s with host := rest } = .next t ∧ step s = .next { t with sent := s.sent }

/-! ### TRANSLATE -/

/-- R120: the page is bits 15:8 and the offset bits 7:0, and together they are the address. -/
def Obligations.AddressDecoderSplits : Prop :=
  ∀ a : Addr, (pageOf a).toNat = a.toNat / 256 ∧ (offsetOf a).toNat = a.toNat % 256 ∧
    a.toNat = (pageOf a).toNat * 256 + (offsetOf a).toNat

/-- R257 to R260 in the order of R263: what refuses a TRANSLATE, with the whole next state. -/
def Obligations.TranslateAdmissionErrors : Prop :=
  ∀ (s : State) (a : Addr),
    (s.halted = true → exec (.translate a) s = .next (withError .halted 0xF5000000 s)) ∧
    (s.halted = false → s.total = 2 ^ s.cntWidth - 1 →
      exec (.translate a) s = .next (withError .cntOverflow 0xF6000000 s)) ∧
    (s.halted = false → s.total ≠ 2 ^ s.cntWidth - 1 → s.policy = .opt → s.trace.length ≤ s.total →
      exec (.translate a) s = .next (withError .traceExhausted 0xF7000000 s)) ∧
    (∀ b, s.halted = false → s.total ≠ 2 ^ s.cntWidth - 1 → s.policy = .opt → s.trace[s.total]? = some b → b ≠ a →
      exec (.translate a) s = .next (withError .traceMismatch 0xF8000000 s))

/-- R202 with R130, R174, R206, R207: a TLB hit completes; the pair and the frame become most recently used, the hit is
counted, the record leaves, and nothing else changes. -/
def Obligations.TlbHitCompletes : Prop :=
  ∀ (s : State) (a : Addr) (f : Frame), Admitted s a → tlbFind s (pageOf a) = some f →
    exec (.translate a) s = .next { s with
      tlbq := s.tlbq.filter (fun e => e.1 != pageOf a) ++ [(pageOf a, f)]
      lruq := s.lruq.filter (fun x => x != f) ++ [f]
      total := s.total + 1
      tlbHits := s.tlbHits + 1
      sent := s.sent ++ [record .tlbHit f a (frameContent s f)] }

/-- R203 with R131, R174, R206, R207: a soft miss completes; the pair is inserted, evicting the first of 16, the miss is
counted, the record leaves, and nothing else changes. -/
def Obligations.SoftMissCompletes : Prop :=
  ∀ (s : State) (a : Addr) (f : Frame), Admitted s a → tlbFind s (pageOf a) = none →
    ptLookup s (pageOf a) = some f →
    exec (.translate a) s = .next { s with
      tlbq := (if s.tlbq.length = 16 then s.tlbq.tail else s.tlbq) ++ [(pageOf a, f)]
      lruq := s.lruq.filter (fun x => x != f) ++ [f]
      total := s.total + 1
      tlbMisses := s.tlbMisses + 1
      sent := s.sent ++ [record .softMiss f a (frameContent s f)] }

/-- R204 with R151, R152, R172, R174, R177, R206, R207: a hard miss from a sound state fills an EMPTY victim frame. The
whole next state; `bsAnswers` and `bsReads` are the model's own account of the read (log entry 3). -/
def Obligations.HardMissFillsEmptyFrame : Prop :=
  ∀ (s : State) (a : Addr), Inv s → Admitted s a → Misses s a → ReadWillSucceed s →
    ownerOf s (selectVictim s s.total) = none →
    exec (.translate a) s = .next { s with
      tlbq := (if s.tlbq.length = 16 then s.tlbq.tail else s.tlbq) ++ [(pageOf a, selectVictim s s.total)]
      pt := s.pt.set (pageOf a).toNat (some (selectVictim s s.total))
      owner := s.owner.set (selectVictim s s.total).toNat (some (pageOf a))
      fs := s.fs.write ((selectVictim s s.total).toNat * 256) (bsPage s (pageOf a))
      filled := s.filled + 1
      cursor := BitVec.ofNat 8 ((s.cursor.toNat + 1) % s.numFrames.toNat)
      lruq := s.lruq.filter (fun x => x != selectVictim s s.total) ++ [selectVictim s s.total]
      total := s.total + 1
      tlbMisses := s.tlbMisses + 1
      pageFaults := s.pageFaults + 1
      bsAnswers := s.bsAnswers.tail
      bsReads := s.bsReads + 1
      sent := s.sent ++ [record .hardMiss (selectVictim s s.total) a (bsPage s (pageOf a))] }

/-- R204 with R132, R152, R295: a hard miss from a sound state that finds its victim frame occupied by page `q`: `q` is
unmapped and its TLB pair removed before the new pair is inserted. The whole next state; `bsAnswers` and `bsReads` are
the model's own account of the read (log entry 3). -/
def Obligations.HardMissReplacesVictim : Prop :=
  ∀ (s : State) (a : Addr) (q : Page), Inv s → Admitted s a → Misses s a → ReadWillSucceed s →
    ownerOf s (selectVictim s s.total) = some q →
    exec (.translate a) s = .next { s with
      tlbq := (if (s.tlbq.filter (fun e => e.1 != q)).length = 16 then (s.tlbq.filter (fun e => e.1 != q)).tail
        else s.tlbq.filter (fun e => e.1 != q)) ++ [(pageOf a, selectVictim s s.total)]
      pt := (s.pt.set q.toNat none).set (pageOf a).toNat (some (selectVictim s s.total))
      owner := s.owner.set (selectVictim s s.total).toNat (some (pageOf a))
      fs := s.fs.write ((selectVictim s s.total).toNat * 256) (bsPage s (pageOf a))
      cursor := BitVec.ofNat 8 ((s.cursor.toNat + 1) % s.numFrames.toNat)
      lruq := s.lruq.filter (fun x => x != selectVictim s s.total) ++ [selectVictim s s.total]
      total := s.total + 1
      tlbMisses := s.tlbMisses + 1
      pageFaults := s.pageFaults + 1
      bsAnswers := s.bsAnswers.tail
      bsReads := s.bsReads + 1
      sent := s.sent ++ [record .hardMiss (selectVictim s s.total) a (bsPage s (pageOf a))] }

/-- R261, R262, R209: a failing backing-store read of a hard miss answers BS_ERROR, sets HALTED, and changes nothing else of
the block; `bsAnswers` and `bsReads` are the model's own account of the read (log entry 3). -/
def Obligations.FailedReadIsFatalAndPrecise : Prop :=
  ∀ (s : State) (a : Addr), Admitted s a → Misses s a → ReadWillFail s →
    exec (.translate a) s = .next { withError .bsError 0xF9000000 s with
      halted := true, bsAnswers := s.bsAnswers.tail, bsReads := s.bsReads + 1 }

/-- R299, U8: a port that never answers the read of a hard miss leaves the block stuck, by name. The fault's
name and the answer `silent` are the model's choice (log entry 4). -/
def Obligations.SilentPortStops : Prop :=
  ∀ (s : State) (a : Addr), Admitted s a → Misses s a → s.bsAnswers.head? = some .silent →
    exec (.translate a) s = .fault .bsPortSilent

/-- The frame of TRANSLATE (R40, R63, R204): it never writes the configuration, the external memories or the channel's
coming moves; off the hard-miss path it writes neither PT, OWNER, CURSOR, FILLED nor any byte of the frame store; a hard
miss stores only the 256 bytes of the victim frame that the selector names before the command. -/
def Obligations.TranslateFrame : Prop :=
  ∀ (s t : State) (a : Addr), exec (.translate a) s = .next t →
    t.numFrames = s.numFrames ∧ t.policy = s.policy ∧ t.bs = s.bs ∧ t.trace = s.trace ∧
    t.nextFill = s.nextFill ∧ t.cntWidth = s.cntWidth ∧ t.host = s.host ∧ t.fsDraw = s.fsDraw ∧
    (t.pageFaults = s.pageFaults → t.pt = s.pt ∧ t.owner = s.owner ∧ t.cursor = s.cursor ∧ t.filled = s.filled ∧
      ∀ x, fsByte t x = fsByte s x) ∧
    (t.pageFaults ≠ s.pageFaults → ∀ x,
      (x < (selectVictim s s.total).toNat * 256 ∨ (selectVictim s s.total).toNat * 256 + 256 ≤ x) →
      fsByte t x = fsByte s x)

/-- R206, R75, R205: from a sound state, the record of a completed TRANSLATE holds the backing store's bytes of the
address's page, and its value byte is the backing-store byte at the address, whatever path was taken. -/
def Obligations.TranslateReturnsStoreBytes : Prop :=
  ∀ (s t : State) (a : Addr), Inv s → exec (.translate a) s = .next t → t.total = s.total + 1 →
    ∃ (o : Path) (f : Frame), ptLookup t (pageOf a) = some f ∧
      t.sent = s.sent ++ [(Response.translated o f a (bsByte s a.toNat) (bsPage s (pageOf a))).words]

/-- The corner case of R200, vector TR-4: after a completed TRANSLATE, an admitted TRANSLATE of the same page is a TLB
hit in the same frame with the frame's same content, from any state. -/
def Obligations.SecondTranslateOfPageHits : Prop :=
  ∀ (s t : State) (a b : Addr), exec (.translate a) s = .next t → t.total = s.total + 1 → pageOf b = pageOf a →
    Admitted t b →
    ∃ (o : Path) (f : Frame) (u : State), exec (.translate b) t = .next u ∧
      t.sent = s.sent ++ [record o f a (frameContent t f)] ∧
      u.sent = t.sent ++ [record .tlbHit f b (frameContent t f)] ∧
      u.tlbHits = t.tlbHits + 1 ∧ u.tlbMisses = t.tlbMisses ∧ u.pageFaults = t.pageFaults ∧
      u.tlbq = t.tlbq ∧ u.lruq = t.lruq

/-- R49: from a sound state with at most 16 frames no TRANSLATE is a soft miss: every TLB miss it counts is a fault. -/
def Obligations.NoSoftMissWithFewFrames : Prop :=
  ∀ (s t : State) (a : Addr), Inv s → s.numFrames.toNat ≤ 16 → exec (.translate a) s = .next t →
    t.tlbMisses + s.pageFaults = s.tlbMisses + t.pageFaults

/-- R295: a hard miss with a full TLB that holds the victim's old page loses that page's pair and no other. -/
def Obligations.InvalidateBeforeInsert : Prop :=
  ∀ (s t : State) (a : Addr) (q : Page), Inv s → exec (.translate a) s = .next t → t.pageFaults = s.pageFaults + 1 →
    ownerOf s (selectVictim s s.total) = some q → (tlbFind s q).isSome = true →
    (∀ e ∈ s.tlbq, e.1 ≠ q → e ∈ t.tlbq) ∧ tlbFind t q = none

/-! ### The replacement selector -/

/-- R170, R171, R173: which frame the selector names under FIFO, in the fill phase, and under LRU once FULL; under OPT
once FULL it is select_OPT. -/
def Obligations.SelectorFollowsPolicy : Prop :=
  ∀ (s : State) (pos : Nat),
    (s.policy = .fifo → selectVictim s pos = s.cursor) ∧
    (s.filled ≠ s.numFrames → selectVictim s pos = s.cursor) ∧
    (s.policy = .lru → s.filled = s.numFrames → ∀ f rest, s.lruq = f :: rest → selectVictim s pos = f) ∧
    (s.policy = .opt → s.filled = s.numFrames → selectVictim s pos = selectOpt s pos)

/-- R175: under OPT, once FULL, the victim is the frame whose page is next referenced farthest ahead, never again counting
as infinitely far, and the lowest such frame. -/
def Obligations.OptVictimIsFarthest : Prop :=
  ∀ (s : State) (pos : Nat), 1 ≤ s.numFrames.toNat → s.numFrames.toNat ≤ 256 → s.policy = .opt →
    s.filled = s.numFrames →
    (selectVictim s pos).toNat < s.numFrames.toNat ∧
    ∀ g : Frame, g.toNat < s.numFrames.toNat →
      (∀ d, nextUse s (ownerOf s (selectVictim s pos)) pos = some d →
        ∃ e, nextUse s (ownerOf s g) pos = some e ∧ e ≤ d ∧ (g.toNat < (selectVictim s pos).toNat → e < d)) ∧
      (nextUse s (ownerOf s (selectVictim s pos)) pos = none → g.toNat < (selectVictim s pos).toNat →
        nextUse s (ownerOf s g) pos ≠ none)

/-- R176: nextUse is the first trace position after `pos` that refers to the page, INF if there is none. -/
def Obligations.NextUseIsFirstReference : Prop :=
  ∀ (s : State) (p : Page) (pos : Nat),
    (∀ j, nextUse s (some p) pos = some j ↔
      (pos < j ∧ (s.trace[j]?).map pageOf = some p ∧ ∀ i, pos < i → i < j → (s.trace[i]?).map pageOf ≠ some p)) ∧
    (nextUse s (some p) pos = none ↔ ∀ i, pos < i → (s.trace[i]?).map pageOf ≠ some p)

/-- R180 for FIFO: the frame of the k-th hard miss of a run is k mod NUM_FRAMES, k counting from 0, whatever the access
pattern; the count of hard misses before it is PAGE_FAULTS. -/
def Obligations.FifoFramesGoRound : Prop :=
  ∀ (s t : State) (a : Addr), RoundRobin s → s.policy = .fifo → exec (.translate a) s = .next t →
    t.pageFaults = s.pageFaults + 1 →
    ∃ f, ptLookup t (pageOf a) = some f ∧ f.toNat = s.pageFaults % s.numFrames.toNat

/-- R178: with one frame every hard miss fills frame 0, under every policy. -/
def Obligations.OneFrameVictimIsZero : Prop :=
  ∀ (s : State) (pos : Nat), Inv s → s.numFrames.toNat = 1 → selectVictim s pos = 0

/-- The corner case of R170: from a sound state the victim is below NUM_FRAMES, an EMPTY frame while not FULL and an
occupied one once FULL. -/
def Obligations.VictimIsInRange : Prop :=
  ∀ (s : State) (pos : Nat), Inv s →
    (selectVictim s pos).toNat < s.numFrames.toNat ∧
    (ownerOf s (selectVictim s pos) = none ↔ s.filled ≠ s.numFrames)

/-! ### SUMMARY and the probes -/

/-- R231, R103: SUMMARY answers the statistics and the status in five words and changes no state. -/
def Obligations.SummaryReports : Prop :=
  ∀ s : State, ∃ w0 : Word,
    w0.toNat = 3 * 2 ^ 28 + (errBits s.errCode).toNat * 2 ^ 24 + s.halted.toNat * 2 ^ 23 + s.err.toNat * 2 ^ 22 +
      (policyBits s.policy).toNat * 2 ^ 9 + s.numFrames.toNat ∧
    exec .summary s = .next { s with sent := s.sent ++ [[w0, BitVec.ofNat 32 s.total, BitVec.ofNat 32 s.pageFaults,
      BitVec.ofNat 32 s.tlbHits, BitVec.ofNat 32 s.tlbMisses]] }

/-- R153, R104: PROBE.PT answers the page-table entry of the page and changes no state. -/
def Obligations.ProbePtReports : Prop :=
  ∀ (s : State) (p : Page),
    (∀ f, ptLookup s p = some f → ∃ w : Word, w.toNat = 0x40800000 + p.toNat * 256 + f.toNat ∧
      exec (.probePt p) s = .next { s with sent := s.sent ++ [[w]] }) ∧
    (ptLookup s p = none → ∃ w : Word, w.toNat = 0x40000000 + p.toNat * 256 ∧
      exec (.probePt p) s = .next { s with sent := s.sent ++ [[w]] })

/-- R133, R104: PROBE.TLB answers what the TLB holds for the page and changes no state, the TLB's order included. -/
def Obligations.ProbeTlbReports : Prop :=
  ∀ (s : State) (p : Page), (s.tlbq.map Prod.fst).Nodup →
    (∀ f, (p, f) ∈ s.tlbq → ∃ w : Word, w.toNat = 0x40800000 + p.toNat * 256 + f.toNat ∧
      exec (.probeTlb p) s = .next { s with sent := s.sent ++ [[w]] }) ∧
    ((∀ f, (p, f) ∉ s.tlbq) → ∃ w : Word, w.toNat = 0x40000000 + p.toNat * 256 ∧
      exec (.probeTlb p) s = .next { s with sent := s.sent ++ [[w]] })

/-! ### Responses -/

/-- R101: the words of a TRANSLATED response: 66 of them, the header's fields and the value byte in their places. -/
def Obligations.TranslatedResponseLayout : Prop :=
  ∀ (o : Path) (f : Frame) (a : Addr) (v : Byte) (content : List Byte),
    ∃ (w0 w1 : Word) (ws : List Word), (Response.translated o f a v content).words = w0 :: w1 :: ws ∧
      ws.length = 64 ∧
      w0.toNat = 2 ^ 28 + (pathBits o).toNat * 2 ^ 26 + f.toNat * 2 ^ 16 + a.toNat ∧ w1.toNat = v.toNat

/-- R106: content byte 4i+j is in bits 8j+7:8j of word 2+i. -/
def Obligations.ContentBytesInTheirLanes : Prop :=
  ∀ (o : Path) (f : Frame) (a : Addr) (v : Byte) (content : List Byte), content.length = 256 →
    ∀ i j, i < 64 → j < 4 → ∀ w, (Response.translated o f a v content).words[2 + i]? = some w →
      content[4 * i + j]? = some (w.extractLsb' (8 * j) 8)

/-- R205: the signed value of a byte is its two's-complement reading: the byte below 128, the byte minus 256 from 128
on, so -128..127. -/
def Obligations.SignedValueIsTwosComplement : Prop :=
  ∀ b : Byte, (b.toNat < 128 → signedValue b = b.toNat) ∧ (128 ≤ b.toNat → signedValue b = (b.toNat : Int) - 256) ∧
    signedValue b = b.toInt ∧ -128 ≤ signedValue b ∧ signedValue b ≤ 127

/-- R232: from a sound state the two rates the host computes from a SUMMARY response are the exact quotients, lie in
0..1, and for an empty trace are 0 and rendered as 0 thousandths. -/
def Obligations.RatesAreExactShares : Prop :=
  ∀ s : State, Inv s → ∃ (t : State) (ws : List Word) (pf hr : Rat),
    exec .summary s = .next t ∧ t.sent = s.sent ++ [ws] ∧ ratesOf ws = some (pf, hr) ∧
    0 ≤ pf ∧ pf ≤ 1 ∧ 0 ≤ hr ∧ hr ≤ 1 ∧ pf * s.total = s.pageFaults ∧ hr * s.total = s.tlbHits ∧
    (s.total = 0 → pf = 0 ∧ hr = 0 ∧ renderedRate pf = 0 ∧ renderedRate hr = 0)

/-! ### Rules over all commands -/

/-- R262, R250: a command whose response is an ERROR changes ERR, ERRCODE (the first code is kept) and, for BS_ERROR
only, HALTED, and nothing else of the block; `bsAnswers` and `bsReads` are the model's own account of the failed
read (log entry 3). -/
def Obligations.ErrorsChangeOnlyStatus : Prop :=
  ∀ (s t : State) (w h : Word) (rest : List HostMove), s.host = .command w :: rest → step s = .next t →
    t.sent = s.sent ++ [[h]] → h.toNat / 2 ^ 28 = 15 →
    ∃ c : ErrCode, c ≠ .none ∧ h.toNat = 15 * 2 ^ 28 + (errBits c).toNat * 2 ^ 24 ∧
      t = { s with
        host := rest
        sent := s.sent ++ [[h]]
        err := true
        errCode := if s.err then s.errCode else c
        halted := if c = .bsError then true else s.halted
        bsAnswers := if c = .bsError then s.bsAnswers.tail else s.bsAnswers
        bsReads := if c = .bsError then s.bsReads + 1 else s.bsReads }

/-- R24: while ERR stays set, ERRCODE keeps the first code; ERR is cleared only by a new run. -/
def Obligations.FirstErrorCodeKept : Prop :=
  ∀ s t : State, s.err = true → step s = .next t →
    (t.err = true ∧ t.errCode = s.errCode) ∨ (StartsRun s ∧ t.err = false ∧ t.errCode = .none)

/-- R264, R265, R23: HALTED is left only by a successful INIT or by reset. -/
def Obligations.HaltedLeftOnlyByNewRun : Prop :=
  ∀ s t : State, s.halted = true → step s = .next t → t.halted = true ∨ StartsRun s

/-- R23, R261: HALTED is entered only by a TRANSLATE that answers BS_ERROR. -/
def Obligations.HaltedEnteredOnlyByBsError : Prop :=
  ∀ s t : State, s.halted = false → step s = .next t → t.halted = true →
    (∃ w rest a, s.host = .command w :: rest ∧ decode w = .ok (.translate a) ∧ ReadWillFail s) ∧
      t.sent = s.sent ++ [[0xF9000000]]

/-- R26, R38: TOTAL moves only by 1 at a successful TRANSLATE, or to 0 at a new run. -/
def Obligations.TotalAdvancesByOne : Prop :=
  ∀ s t : State, step s = .next t →
    t.total = s.total ∨ (StartsRun s ∧ t.total = 0) ∨
      (t.total = s.total + 1 ∧ ∃ w rest a, s.host = .command w :: rest ∧ decode w = .ok (.translate a))

/-- R21, R22: NUM_FRAMES and POLICY are written only by a successful INIT and by reset. -/
def Obligations.ConfigurationFixedInRun : Prop :=
  ∀ s t : State, step s = .next t → ¬ StartsRun s → t.numFrames = s.numFrames ∧ t.policy = s.policy

/-- R46: once a frame is occupied it stays occupied until INIT or reset. -/
def Obligations.FramesNeverFreedInRun : Prop :=
  ∀ (s t : State) (f : Frame), Inv s → step s = .next t → ¬ StartsRun s →
    ownerOf s f ≠ none → ownerOf t f ≠ none

/-- R64, R66, R9: no command writes the backing store or the trace memory, and none changes CNT_WIDTH, a run parameter
(the field of log entry 7). An INIT that starts a run takes what the host has provided for it (log entry 11). -/
def Obligations.CommandsNeverWriteExternalMemories : Prop :=
  ∀ (s t : State) (w : Word) (rest : List HostMove), s.host = .command w :: rest → step s = .next t →
    t.cntWidth = s.cntWidth ∧
    (¬ IsLegalInit w ∨ s.nextFill = none → t.bs = s.bs ∧ t.trace = s.trace ∧ t.nextFill = s.nextFill) ∧
    (∀ f, IsLegalInit w → s.nextFill = some f → t.bs = Memory.ofCells f.bytes ∧ t.trace = f.trace)

/-! ### What cannot be observed -/

/-- R31, D11, U2: from a sound state the draw FRAME_INIT cannot be observed: with another draw the step gives the same
responses and the same next state but for the draw itself. How the draw is held is the model's choice (log entry 5). -/
def Obligations.FrameInitUnobservable : Prop :=
  ∀ (s t : State) (d : Nat), Inv s → step s = .next t →
    ∃ t', step { s with fsDraw := d } = .next t' ∧ { t' with fsDraw := t.fsDraw } = t

/-- R174, D13: only LRU reads LRUQ: under another policy, another LRUQ gives the same responses and the same next state
but for LRUQ itself. -/
def Obligations.LruqUnreadUnlessLru : Prop :=
  ∀ (s t : State) (q : List Frame), s.policy ≠ .lru → step s = .next t →
    ∃ t', step { s with lruq := q } = .next t' ∧ { t' with lruq := t.lruq } = t

/-- R172, D12: under LRU or OPT, once FULL, nothing reads CURSOR: another CURSOR gives the same responses and the same
next state but for CURSOR itself. -/
def Obligations.CursorUnreadOnceFull : Prop :=
  ∀ (s t : State) (c : Frame), s.policy ≠ .fifo → s.filled = s.numFrames → step s = .next t →
    ∃ t', step { s with cursor := c } = .next t' ∧ { t' with cursor := t.cursor } = t
end

