-- ==== Sys2Proof/Laws/Bits.lean ====
section
/-!
SUPPORT. The bit fields of the command words and of the response headers as numbers: what a concatenation and a field
of it are, in arithmetic.
-/

namespace Sys2Proof

/-- `{a, b}` of R10 as a number. -/
theorem toNat_concat {m n : Nat} (x : BitVec m) (y : BitVec n) : (x ++ y).toNat = x.toNat * 2 ^ n + y.toNat := by
  rw [BitVec.toNat_append, ← Nat.shiftLeft_add_eq_or_of_lt y.isLt, Nat.shiftLeft_eq]

/-- A field `v[hi:lo]` of R10 as a number. -/
theorem toNat_field {m : Nat} (w : BitVec m) (lo n : Nat) : (w.extractLsb' lo n).toNat = w.toNat / 2 ^ lo % 2 ^ n := by
  simp [BitVec.extractLsb'_toNat, Nat.shiftRight_eq_div_pow]

/-- A field is what its number says. -/
theorem field_of_number {m n : Nat} {w : BitVec m} {x : BitVec n} (lo : Nat) (h : w.toNat / 2 ^ lo % 2 ^ n = x.toNat) :
    w.extractLsb' lo n = x := BitVec.eq_of_toNat_eq (by rw [toNat_field, h])

theorem opField_eq_iff (w : Word) (op : BitVec 4) : opField w = op ↔ w.toNat / 2 ^ 28 = op.toNat := by
  have := w.isLt
  rw [← BitVec.toNat_inj, opField, toNat_field]
  omega

/-! The command words as numbers (R92 to R96). -/

theorem encode_init_toNat (n : BitVec 9) (p : BitVec 2) :
    (encode (.init n p)).toNat = 0x10000000 + p.toNat * 512 + n.toNat := by
  simp only [encode, toNat_concat, BitVec.toNat_ofNat]; omega

theorem encode_translate_toNat (a : Addr) : (encode (.translate a)).toNat = 0x20000000 + a.toNat := by
  simp only [encode, toNat_concat, BitVec.toNat_ofNat]; omega

theorem encode_probePt_toNat (p : Page) : (encode (.probePt p)).toNat = 0x40000000 + p.toNat := by
  simp only [encode, toNat_concat, BitVec.toNat_ofNat]; omega

theorem encode_probeTlb_toNat (p : Page) : (encode (.probeTlb p)).toNat = 0x50000000 + p.toNat := by
  simp only [encode, toNat_concat, BitVec.toNat_ofNat]; omega

end Sys2Proof
end

