-- ==== Sys2Proof/Laws/State.lean ====
section
/-!
SUPPORT. One lemma per field and update of the state: what each named operation leaves as it was, and, where it is one
expression, what it writes. No later proof unfolds a record update.
-/

namespace Sys2Proof.Machine


/-! ### respond -/

@[simp] theorem respond_numFrames (r : Response) (s : State) : (respond r s).numFrames = s.numFrames := rfl
@[simp] theorem respond_policy (r : Response) (s : State) : (respond r s).policy = s.policy := rfl
@[simp] theorem respond_halted (r : Response) (s : State) : (respond r s).halted = s.halted := rfl
@[simp] theorem respond_err (r : Response) (s : State) : (respond r s).err = s.err := rfl
@[simp] theorem respond_errCode (r : Response) (s : State) : (respond r s).errCode = s.errCode := rfl
@[simp] theorem respond_total (r : Response) (s : State) : (respond r s).total = s.total := rfl
@[simp] theorem respond_pageFaults (r : Response) (s : State) : (respond r s).pageFaults = s.pageFaults := rfl
@[simp] theorem respond_tlbHits (r : Response) (s : State) : (respond r s).tlbHits = s.tlbHits := rfl
@[simp] theorem respond_tlbMisses (r : Response) (s : State) : (respond r s).tlbMisses = s.tlbMisses := rfl
@[simp] theorem respond_tlbq (r : Response) (s : State) : (respond r s).tlbq = s.tlbq := rfl
@[simp] theorem respond_pt (r : Response) (s : State) : (respond r s).pt = s.pt := rfl
@[simp] theorem respond_fs (r : Response) (s : State) : (respond r s).fs = s.fs := rfl
@[simp] theorem respond_owner (r : Response) (s : State) : (respond r s).owner = s.owner := rfl
@[simp] theorem respond_cursor (r : Response) (s : State) : (respond r s).cursor = s.cursor := rfl
@[simp] theorem respond_filled (r : Response) (s : State) : (respond r s).filled = s.filled := rfl
@[simp] theorem respond_lruq (r : Response) (s : State) : (respond r s).lruq = s.lruq := rfl
@[simp] theorem respond_fsDraw (r : Response) (s : State) : (respond r s).fsDraw = s.fsDraw := rfl
@[simp] theorem respond_bs (r : Response) (s : State) : (respond r s).bs = s.bs := rfl
@[simp] theorem respond_bsAnswers (r : Response) (s : State) : (respond r s).bsAnswers = s.bsAnswers := rfl
@[simp] theorem respond_bsReads (r : Response) (s : State) : (respond r s).bsReads = s.bsReads := rfl
@[simp] theorem respond_trace (r : Response) (s : State) : (respond r s).trace = s.trace := rfl
@[simp] theorem respond_nextFill (r : Response) (s : State) : (respond r s).nextFill = s.nextFill := rfl
@[simp] theorem respond_cntWidth (r : Response) (s : State) : (respond r s).cntWidth = s.cntWidth := rfl
@[simp] theorem respond_host (r : Response) (s : State) : (respond r s).host = s.host := rfl
@[simp] theorem respond_sent (r : Response) (s : State) : (respond r s).sent = s.sent ++ [r.words] := rfl

/-! ### latchError -/

@[simp] theorem latchError_numFrames (c : ErrCode) (s : State) : (latchError c s).numFrames = s.numFrames := rfl
@[simp] theorem latchError_policy (c : ErrCode) (s : State) : (latchError c s).policy = s.policy := rfl
@[simp] theorem latchError_halted (c : ErrCode) (s : State) : (latchError c s).halted = s.halted := rfl
@[simp] theorem latchError_err (c : ErrCode) (s : State) : (latchError c s).err = true := rfl
@[simp] theorem latchError_errCode (c : ErrCode) (s : State) : (latchError c s).errCode = if s.err then s.errCode else c := rfl
@[simp] theorem latchError_total (c : ErrCode) (s : State) : (latchError c s).total = s.total := rfl
@[simp] theorem latchError_pageFaults (c : ErrCode) (s : State) : (latchError c s).pageFaults = s.pageFaults := rfl
@[simp] theorem latchError_tlbHits (c : ErrCode) (s : State) : (latchError c s).tlbHits = s.tlbHits := rfl
@[simp] theorem latchError_tlbMisses (c : ErrCode) (s : State) : (latchError c s).tlbMisses = s.tlbMisses := rfl
@[simp] theorem latchError_tlbq (c : ErrCode) (s : State) : (latchError c s).tlbq = s.tlbq := rfl
@[simp] theorem latchError_pt (c : ErrCode) (s : State) : (latchError c s).pt = s.pt := rfl
@[simp] theorem latchError_fs (c : ErrCode) (s : State) : (latchError c s).fs = s.fs := rfl
@[simp] theorem latchError_owner (c : ErrCode) (s : State) : (latchError c s).owner = s.owner := rfl
@[simp] theorem latchError_cursor (c : ErrCode) (s : State) : (latchError c s).cursor = s.cursor := rfl
@[simp] theorem latchError_filled (c : ErrCode) (s : State) : (latchError c s).filled = s.filled := rfl
@[simp] theorem latchError_lruq (c : ErrCode) (s : State) : (latchError c s).lruq = s.lruq := rfl
@[simp] theorem latchError_fsDraw (c : ErrCode) (s : State) : (latchError c s).fsDraw = s.fsDraw := rfl
@[simp] theorem latchError_bs (c : ErrCode) (s : State) : (latchError c s).bs = s.bs := rfl
@[simp] theorem latchError_bsAnswers (c : ErrCode) (s : State) : (latchError c s).bsAnswers = s.bsAnswers := rfl
@[simp] theorem latchError_bsReads (c : ErrCode) (s : State) : (latchError c s).bsReads = s.bsReads := rfl
@[simp] theorem latchError_trace (c : ErrCode) (s : State) : (latchError c s).trace = s.trace := rfl
@[simp] theorem latchError_nextFill (c : ErrCode) (s : State) : (latchError c s).nextFill = s.nextFill := rfl
@[simp] theorem latchError_cntWidth (c : ErrCode) (s : State) : (latchError c s).cntWidth = s.cntWidth := rfl
@[simp] theorem latchError_host (c : ErrCode) (s : State) : (latchError c s).host = s.host := rfl
@[simp] theorem latchError_sent (c : ErrCode) (s : State) : (latchError c s).sent = s.sent := rfl

/-! ### haltIf -/

@[simp] theorem haltIf_numFrames (b : Bool) (s : State) : (haltIf b s).numFrames = s.numFrames := rfl
@[simp] theorem haltIf_policy (b : Bool) (s : State) : (haltIf b s).policy = s.policy := rfl
@[simp] theorem haltIf_halted (b : Bool) (s : State) : (haltIf b s).halted = (s.halted || b) := rfl
@[simp] theorem haltIf_err (b : Bool) (s : State) : (haltIf b s).err = s.err := rfl
@[simp] theorem haltIf_errCode (b : Bool) (s : State) : (haltIf b s).errCode = s.errCode := rfl
@[simp] theorem haltIf_total (b : Bool) (s : State) : (haltIf b s).total = s.total := rfl
@[simp] theorem haltIf_pageFaults (b : Bool) (s : State) : (haltIf b s).pageFaults = s.pageFaults := rfl
@[simp] theorem haltIf_tlbHits (b : Bool) (s : State) : (haltIf b s).tlbHits = s.tlbHits := rfl
@[simp] theorem haltIf_tlbMisses (b : Bool) (s : State) : (haltIf b s).tlbMisses = s.tlbMisses := rfl
@[simp] theorem haltIf_tlbq (b : Bool) (s : State) : (haltIf b s).tlbq = s.tlbq := rfl
@[simp] theorem haltIf_pt (b : Bool) (s : State) : (haltIf b s).pt = s.pt := rfl
@[simp] theorem haltIf_fs (b : Bool) (s : State) : (haltIf b s).fs = s.fs := rfl
@[simp] theorem haltIf_owner (b : Bool) (s : State) : (haltIf b s).owner = s.owner := rfl
@[simp] theorem haltIf_cursor (b : Bool) (s : State) : (haltIf b s).cursor = s.cursor := rfl
@[simp] theorem haltIf_filled (b : Bool) (s : State) : (haltIf b s).filled = s.filled := rfl
@[simp] theorem haltIf_lruq (b : Bool) (s : State) : (haltIf b s).lruq = s.lruq := rfl
@[simp] theorem haltIf_fsDraw (b : Bool) (s : State) : (haltIf b s).fsDraw = s.fsDraw := rfl
@[simp] theorem haltIf_bs (b : Bool) (s : State) : (haltIf b s).bs = s.bs := rfl
@[simp] theorem haltIf_bsAnswers (b : Bool) (s : State) : (haltIf b s).bsAnswers = s.bsAnswers := rfl
@[simp] theorem haltIf_bsReads (b : Bool) (s : State) : (haltIf b s).bsReads = s.bsReads := rfl
@[simp] theorem haltIf_trace (b : Bool) (s : State) : (haltIf b s).trace = s.trace := rfl
@[simp] theorem haltIf_nextFill (b : Bool) (s : State) : (haltIf b s).nextFill = s.nextFill := rfl
@[simp] theorem haltIf_cntWidth (b : Bool) (s : State) : (haltIf b s).cntWidth = s.cntWidth := rfl
@[simp] theorem haltIf_host (b : Bool) (s : State) : (haltIf b s).host = s.host := rfl
@[simp] theorem haltIf_sent (b : Bool) (s : State) : (haltIf b s).sent = s.sent := rfl

/-! ### raiseError -/

@[simp] theorem raiseError_numFrames (c : ErrCode) (b : Bool) (s : State) : (raiseError c b s).numFrames = s.numFrames := rfl
@[simp] theorem raiseError_policy (c : ErrCode) (b : Bool) (s : State) : (raiseError c b s).policy = s.policy := rfl
@[simp] theorem raiseError_halted (c : ErrCode) (b : Bool) (s : State) : (raiseError c b s).halted = (s.halted || b) := rfl
@[simp] theorem raiseError_err (c : ErrCode) (b : Bool) (s : State) : (raiseError c b s).err = true := rfl
@[simp] theorem raiseError_errCode (c : ErrCode) (b : Bool) (s : State) : (raiseError c b s).errCode = if s.err then s.errCode else c := rfl
@[simp] theorem raiseError_total (c : ErrCode) (b : Bool) (s : State) : (raiseError c b s).total = s.total := rfl
@[simp] theorem raiseError_pageFaults (c : ErrCode) (b : Bool) (s : State) : (raiseError c b s).pageFaults = s.pageFaults := rfl
@[simp] theorem raiseError_tlbHits (c : ErrCode) (b : Bool) (s : State) : (raiseError c b s).tlbHits = s.tlbHits := rfl
@[simp] theorem raiseError_tlbMisses (c : ErrCode) (b : Bool) (s : State) : (raiseError c b s).tlbMisses = s.tlbMisses := rfl
@[simp] theorem raiseError_tlbq (c : ErrCode) (b : Bool) (s : State) : (raiseError c b s).tlbq = s.tlbq := rfl
@[simp] theorem raiseError_pt (c : ErrCode) (b : Bool) (s : State) : (raiseError c b s).pt = s.pt := rfl
@[simp] theorem raiseError_fs (c : ErrCode) (b : Bool) (s : State) : (raiseError c b s).fs = s.fs := rfl
@[simp] theorem raiseError_owner (c : ErrCode) (b : Bool) (s : State) : (raiseError c b s).owner = s.owner := rfl
@[simp] theorem raiseError_cursor (c : ErrCode) (b : Bool) (s : State) : (raiseError c b s).cursor = s.cursor := rfl
@[simp] theorem raiseError_filled (c : ErrCode) (b : Bool) (s : State) : (raiseError c b s).filled = s.filled := rfl
@[simp] theorem raiseError_lruq (c : ErrCode) (b : Bool) (s : State) : (raiseError c b s).lruq = s.lruq := rfl
@[simp] theorem raiseError_fsDraw (c : ErrCode) (b : Bool) (s : State) : (raiseError c b s).fsDraw = s.fsDraw := rfl
@[simp] theorem raiseError_bs (c : ErrCode) (b : Bool) (s : State) : (raiseError c b s).bs = s.bs := rfl
@[simp] theorem raiseError_bsAnswers (c : ErrCode) (b : Bool) (s : State) : (raiseError c b s).bsAnswers = s.bsAnswers := rfl
@[simp] theorem raiseError_bsReads (c : ErrCode) (b : Bool) (s : State) : (raiseError c b s).bsReads = s.bsReads := rfl
@[simp] theorem raiseError_trace (c : ErrCode) (b : Bool) (s : State) : (raiseError c b s).trace = s.trace := rfl
@[simp] theorem raiseError_nextFill (c : ErrCode) (b : Bool) (s : State) : (raiseError c b s).nextFill = s.nextFill := rfl
@[simp] theorem raiseError_cntWidth (c : ErrCode) (b : Bool) (s : State) : (raiseError c b s).cntWidth = s.cntWidth := rfl
@[simp] theorem raiseError_host (c : ErrCode) (b : Bool) (s : State) : (raiseError c b s).host = s.host := rfl
@[simp] theorem raiseError_sent (c : ErrCode) (b : Bool) (s : State) : (raiseError c b s).sent = s.sent ++ [(Response.error c).words] := rfl

/-! ### countPath -/

@[simp] theorem countPath_numFrames (o : Path) (s : State) : (countPath o s).numFrames = s.numFrames := rfl
@[simp] theorem countPath_policy (o : Path) (s : State) : (countPath o s).policy = s.policy := rfl
@[simp] theorem countPath_halted (o : Path) (s : State) : (countPath o s).halted = s.halted := rfl
@[simp] theorem countPath_err (o : Path) (s : State) : (countPath o s).err = s.err := rfl
@[simp] theorem countPath_errCode (o : Path) (s : State) : (countPath o s).errCode = s.errCode := rfl
@[simp] theorem countPath_total (o : Path) (s : State) : (countPath o s).total = s.total + 1 := rfl
@[simp] theorem countPath_tlbq (o : Path) (s : State) : (countPath o s).tlbq = s.tlbq := rfl
@[simp] theorem countPath_pt (o : Path) (s : State) : (countPath o s).pt = s.pt := rfl
@[simp] theorem countPath_fs (o : Path) (s : State) : (countPath o s).fs = s.fs := rfl
@[simp] theorem countPath_owner (o : Path) (s : State) : (countPath o s).owner = s.owner := rfl
@[simp] theorem countPath_cursor (o : Path) (s : State) : (countPath o s).cursor = s.cursor := rfl
@[simp] theorem countPath_filled (o : Path) (s : State) : (countPath o s).filled = s.filled := rfl
@[simp] theorem countPath_lruq (o : Path) (s : State) : (countPath o s).lruq = s.lruq := rfl
@[simp] theorem countPath_fsDraw (o : Path) (s : State) : (countPath o s).fsDraw = s.fsDraw := rfl
@[simp] theorem countPath_bs (o : Path) (s : State) : (countPath o s).bs = s.bs := rfl
@[simp] theorem countPath_bsAnswers (o : Path) (s : State) : (countPath o s).bsAnswers = s.bsAnswers := rfl
@[simp] theorem countPath_bsReads (o : Path) (s : State) : (countPath o s).bsReads = s.bsReads := rfl
@[simp] theorem countPath_trace (o : Path) (s : State) : (countPath o s).trace = s.trace := rfl
@[simp] theorem countPath_nextFill (o : Path) (s : State) : (countPath o s).nextFill = s.nextFill := rfl
@[simp] theorem countPath_cntWidth (o : Path) (s : State) : (countPath o s).cntWidth = s.cntWidth := rfl
@[simp] theorem countPath_host (o : Path) (s : State) : (countPath o s).host = s.host := rfl
@[simp] theorem countPath_sent (o : Path) (s : State) : (countPath o s).sent = s.sent := rfl
@[simp] theorem countPath_tlbHit_tlbHits (s : State) : (countPath .tlbHit s).tlbHits = s.tlbHits + 1 := rfl
@[simp] theorem countPath_tlbHit_tlbMisses (s : State) : (countPath .tlbHit s).tlbMisses = s.tlbMisses := rfl
@[simp] theorem countPath_tlbHit_pageFaults (s : State) : (countPath .tlbHit s).pageFaults = s.pageFaults := rfl
@[simp] theorem countPath_softMiss_tlbHits (s : State) : (countPath .softMiss s).tlbHits = s.tlbHits := rfl
@[simp] theorem countPath_softMiss_tlbMisses (s : State) : (countPath .softMiss s).tlbMisses = s.tlbMisses + 1 := rfl
@[simp] theorem countPath_softMiss_pageFaults (s : State) : (countPath .softMiss s).pageFaults = s.pageFaults := rfl
@[simp] theorem countPath_hardMiss_tlbHits (s : State) : (countPath .hardMiss s).tlbHits = s.tlbHits := rfl
@[simp] theorem countPath_hardMiss_tlbMisses (s : State) : (countPath .hardMiss s).tlbMisses = s.tlbMisses + 1 := rfl
@[simp] theorem countPath_hardMiss_pageFaults (s : State) : (countPath .hardMiss s).pageFaults = s.pageFaults + 1 := rfl

/-! ### reportAccess -/

@[simp] theorem reportAccess_numFrames (f : Frame) (s : State) : (reportAccess f s).numFrames = s.numFrames := rfl
@[simp] theorem reportAccess_policy (f : Frame) (s : State) : (reportAccess f s).policy = s.policy := rfl
@[simp] theorem reportAccess_halted (f : Frame) (s : State) : (reportAccess f s).halted = s.halted := rfl
@[simp] theorem reportAccess_err (f : Frame) (s : State) : (reportAccess f s).err = s.err := rfl
@[simp] theorem reportAccess_errCode (f : Frame) (s : State) : (reportAccess f s).errCode = s.errCode := rfl
@[simp] theorem reportAccess_total (f : Frame) (s : State) : (reportAccess f s).total = s.total := rfl
@[simp] theorem reportAccess_pageFaults (f : Frame) (s : State) : (reportAccess f s).pageFaults = s.pageFaults := rfl
@[simp] theorem reportAccess_tlbHits (f : Frame) (s : State) : (reportAccess f s).tlbHits = s.tlbHits := rfl
@[simp] theorem reportAccess_tlbMisses (f : Frame) (s : State) : (reportAccess f s).tlbMisses = s.tlbMisses := rfl
@[simp] theorem reportAccess_tlbq (f : Frame) (s : State) : (reportAccess f s).tlbq = s.tlbq := rfl
@[simp] theorem reportAccess_pt (f : Frame) (s : State) : (reportAccess f s).pt = s.pt := rfl
@[simp] theorem reportAccess_fs (f : Frame) (s : State) : (reportAccess f s).fs = s.fs := rfl
@[simp] theorem reportAccess_owner (f : Frame) (s : State) : (reportAccess f s).owner = s.owner := rfl
@[simp] theorem reportAccess_cursor (f : Frame) (s : State) : (reportAccess f s).cursor = s.cursor := rfl
@[simp] theorem reportAccess_filled (f : Frame) (s : State) : (reportAccess f s).filled = s.filled := rfl
@[simp] theorem reportAccess_lruq (f : Frame) (s : State) : (reportAccess f s).lruq = (s.lruq.filter fun x => x != f) ++ [f] := rfl
@[simp] theorem reportAccess_fsDraw (f : Frame) (s : State) : (reportAccess f s).fsDraw = s.fsDraw := rfl
@[simp] theorem reportAccess_bs (f : Frame) (s : State) : (reportAccess f s).bs = s.bs := rfl
@[simp] theorem reportAccess_bsAnswers (f : Frame) (s : State) : (reportAccess f s).bsAnswers = s.bsAnswers := rfl
@[simp] theorem reportAccess_bsReads (f : Frame) (s : State) : (reportAccess f s).bsReads = s.bsReads := rfl
@[simp] theorem reportAccess_trace (f : Frame) (s : State) : (reportAccess f s).trace = s.trace := rfl
@[simp] theorem reportAccess_nextFill (f : Frame) (s : State) : (reportAccess f s).nextFill = s.nextFill := rfl
@[simp] theorem reportAccess_cntWidth (f : Frame) (s : State) : (reportAccess f s).cntWidth = s.cntWidth := rfl
@[simp] theorem reportAccess_host (f : Frame) (s : State) : (reportAccess f s).host = s.host := rfl
@[simp] theorem reportAccess_sent (f : Frame) (s : State) : (reportAccess f s).sent = s.sent := rfl

/-! ### installPage -/

@[simp] theorem installPage_numFrames (f : Frame) (d : List Byte) (s : State) : (installPage f d s).numFrames = s.numFrames := rfl
@[simp] theorem installPage_policy (f : Frame) (d : List Byte) (s : State) : (installPage f d s).policy = s.policy := rfl
@[simp] theorem installPage_halted (f : Frame) (d : List Byte) (s : State) : (installPage f d s).halted = s.halted := rfl
@[simp] theorem installPage_err (f : Frame) (d : List Byte) (s : State) : (installPage f d s).err = s.err := rfl
@[simp] theorem installPage_errCode (f : Frame) (d : List Byte) (s : State) : (installPage f d s).errCode = s.errCode := rfl
@[simp] theorem installPage_total (f : Frame) (d : List Byte) (s : State) : (installPage f d s).total = s.total := rfl
@[simp] theorem installPage_pageFaults (f : Frame) (d : List Byte) (s : State) : (installPage f d s).pageFaults = s.pageFaults := rfl
@[simp] theorem installPage_tlbHits (f : Frame) (d : List Byte) (s : State) : (installPage f d s).tlbHits = s.tlbHits := rfl
@[simp] theorem installPage_tlbMisses (f : Frame) (d : List Byte) (s : State) : (installPage f d s).tlbMisses = s.tlbMisses := rfl
@[simp] theorem installPage_tlbq (f : Frame) (d : List Byte) (s : State) : (installPage f d s).tlbq = s.tlbq := rfl
@[simp] theorem installPage_pt (f : Frame) (d : List Byte) (s : State) : (installPage f d s).pt = s.pt := rfl
@[simp] theorem installPage_fs (f : Frame) (d : List Byte) (s : State) : (installPage f d s).fs = s.fs.write (frameBase f) d := rfl
@[simp] theorem installPage_owner (f : Frame) (d : List Byte) (s : State) : (installPage f d s).owner = s.owner := rfl
@[simp] theorem installPage_cursor (f : Frame) (d : List Byte) (s : State) : (installPage f d s).cursor = s.cursor := rfl
@[simp] theorem installPage_filled (f : Frame) (d : List Byte) (s : State) : (installPage f d s).filled = s.filled := rfl
@[simp] theorem installPage_lruq (f : Frame) (d : List Byte) (s : State) : (installPage f d s).lruq = s.lruq := rfl
@[simp] theorem installPage_fsDraw (f : Frame) (d : List Byte) (s : State) : (installPage f d s).fsDraw = s.fsDraw := rfl
@[simp] theorem installPage_bs (f : Frame) (d : List Byte) (s : State) : (installPage f d s).bs = s.bs := rfl
@[simp] theorem installPage_bsAnswers (f : Frame) (d : List Byte) (s : State) : (installPage f d s).bsAnswers = s.bsAnswers := rfl
@[simp] theorem installPage_bsReads (f : Frame) (d : List Byte) (s : State) : (installPage f d s).bsReads = s.bsReads := rfl
@[simp] theorem installPage_trace (f : Frame) (d : List Byte) (s : State) : (installPage f d s).trace = s.trace := rfl
@[simp] theorem installPage_nextFill (f : Frame) (d : List Byte) (s : State) : (installPage f d s).nextFill = s.nextFill := rfl
@[simp] theorem installPage_cntWidth (f : Frame) (d : List Byte) (s : State) : (installPage f d s).cntWidth = s.cntWidth := rfl
@[simp] theorem installPage_host (f : Frame) (d : List Byte) (s : State) : (installPage f d s).host = s.host := rfl
@[simp] theorem installPage_sent (f : Frame) (d : List Byte) (s : State) : (installPage f d s).sent = s.sent := rfl

/-! ### bsReadDone -/

@[simp] theorem bsReadDone_numFrames (s : State) : (bsReadDone s).numFrames = s.numFrames := rfl
@[simp] theorem bsReadDone_policy (s : State) : (bsReadDone s).policy = s.policy := rfl
@[simp] theorem bsReadDone_halted (s : State) : (bsReadDone s).halted = s.halted := rfl
@[simp] theorem bsReadDone_err (s : State) : (bsReadDone s).err = s.err := rfl
@[simp] theorem bsReadDone_errCode (s : State) : (bsReadDone s).errCode = s.errCode := rfl
@[simp] theorem bsReadDone_total (s : State) : (bsReadDone s).total = s.total := rfl
@[simp] theorem bsReadDone_pageFaults (s : State) : (bsReadDone s).pageFaults = s.pageFaults := rfl
@[simp] theorem bsReadDone_tlbHits (s : State) : (bsReadDone s).tlbHits = s.tlbHits := rfl
@[simp] theorem bsReadDone_tlbMisses (s : State) : (bsReadDone s).tlbMisses = s.tlbMisses := rfl
@[simp] theorem bsReadDone_tlbq (s : State) : (bsReadDone s).tlbq = s.tlbq := rfl
@[simp] theorem bsReadDone_pt (s : State) : (bsReadDone s).pt = s.pt := rfl
@[simp] theorem bsReadDone_fs (s : State) : (bsReadDone s).fs = s.fs := rfl
@[simp] theorem bsReadDone_owner (s : State) : (bsReadDone s).owner = s.owner := rfl
@[simp] theorem bsReadDone_cursor (s : State) : (bsReadDone s).cursor = s.cursor := rfl
@[simp] theorem bsReadDone_filled (s : State) : (bsReadDone s).filled = s.filled := rfl
@[simp] theorem bsReadDone_lruq (s : State) : (bsReadDone s).lruq = s.lruq := rfl
@[simp] theorem bsReadDone_fsDraw (s : State) : (bsReadDone s).fsDraw = s.fsDraw := rfl
@[simp] theorem bsReadDone_bs (s : State) : (bsReadDone s).bs = s.bs := rfl
@[simp] theorem bsReadDone_bsAnswers (s : State) : (bsReadDone s).bsAnswers = s.bsAnswers.tail := rfl
@[simp] theorem bsReadDone_bsReads (s : State) : (bsReadDone s).bsReads = s.bsReads + 1 := rfl
@[simp] theorem bsReadDone_trace (s : State) : (bsReadDone s).trace = s.trace := rfl
@[simp] theorem bsReadDone_nextFill (s : State) : (bsReadDone s).nextFill = s.nextFill := rfl
@[simp] theorem bsReadDone_cntWidth (s : State) : (bsReadDone s).cntWidth = s.cntWidth := rfl
@[simp] theorem bsReadDone_host (s : State) : (bsReadDone s).host = s.host := rfl
@[simp] theorem bsReadDone_sent (s : State) : (bsReadDone s).sent = s.sent := rfl

/-! ### tlbInsert -/

@[simp] theorem tlbInsert_numFrames (p : Page) (f : Frame) (s : State) : (tlbInsert p f s).numFrames = s.numFrames := rfl
@[simp] theorem tlbInsert_policy (p : Page) (f : Frame) (s : State) : (tlbInsert p f s).policy = s.policy := rfl
@[simp] theorem tlbInsert_halted (p : Page) (f : Frame) (s : State) : (tlbInsert p f s).halted = s.halted := rfl
@[simp] theorem tlbInsert_err (p : Page) (f : Frame) (s : State) : (tlbInsert p f s).err = s.err := rfl
@[simp] theorem tlbInsert_errCode (p : Page) (f : Frame) (s : State) : (tlbInsert p f s).errCode = s.errCode := rfl
@[simp] theorem tlbInsert_total (p : Page) (f : Frame) (s : State) : (tlbInsert p f s).total = s.total := rfl
@[simp] theorem tlbInsert_pageFaults (p : Page) (f : Frame) (s : State) : (tlbInsert p f s).pageFaults = s.pageFaults := rfl
@[simp] theorem tlbInsert_tlbHits (p : Page) (f : Frame) (s : State) : (tlbInsert p f s).tlbHits = s.tlbHits := rfl
@[simp] theorem tlbInsert_tlbMisses (p : Page) (f : Frame) (s : State) : (tlbInsert p f s).tlbMisses = s.tlbMisses := rfl
@[simp] theorem tlbInsert_tlbq (p : Page) (f : Frame) (s : State) : (tlbInsert p f s).tlbq = insertPair s.tlbq p f := rfl
@[simp] theorem tlbInsert_pt (p : Page) (f : Frame) (s : State) : (tlbInsert p f s).pt = s.pt := rfl
@[simp] theorem tlbInsert_fs (p : Page) (f : Frame) (s : State) : (tlbInsert p f s).fs = s.fs := rfl
@[simp] theorem tlbInsert_owner (p : Page) (f : Frame) (s : State) : (tlbInsert p f s).owner = s.owner := rfl
@[simp] theorem tlbInsert_cursor (p : Page) (f : Frame) (s : State) : (tlbInsert p f s).cursor = s.cursor := rfl
@[simp] theorem tlbInsert_filled (p : Page) (f : Frame) (s : State) : (tlbInsert p f s).filled = s.filled := rfl
@[simp] theorem tlbInsert_lruq (p : Page) (f : Frame) (s : State) : (tlbInsert p f s).lruq = s.lruq := rfl
@[simp] theorem tlbInsert_fsDraw (p : Page) (f : Frame) (s : State) : (tlbInsert p f s).fsDraw = s.fsDraw := rfl
@[simp] theorem tlbInsert_bs (p : Page) (f : Frame) (s : State) : (tlbInsert p f s).bs = s.bs := rfl
@[simp] theorem tlbInsert_bsAnswers (p : Page) (f : Frame) (s : State) : (tlbInsert p f s).bsAnswers = s.bsAnswers := rfl
@[simp] theorem tlbInsert_bsReads (p : Page) (f : Frame) (s : State) : (tlbInsert p f s).bsReads = s.bsReads := rfl
@[simp] theorem tlbInsert_trace (p : Page) (f : Frame) (s : State) : (tlbInsert p f s).trace = s.trace := rfl
@[simp] theorem tlbInsert_nextFill (p : Page) (f : Frame) (s : State) : (tlbInsert p f s).nextFill = s.nextFill := rfl
@[simp] theorem tlbInsert_cntWidth (p : Page) (f : Frame) (s : State) : (tlbInsert p f s).cntWidth = s.cntWidth := rfl
@[simp] theorem tlbInsert_host (p : Page) (f : Frame) (s : State) : (tlbInsert p f s).host = s.host := rfl
@[simp] theorem tlbInsert_sent (p : Page) (f : Frame) (s : State) : (tlbInsert p f s).sent = s.sent := rfl

/-! ### tlbPromote -/

@[simp] theorem tlbPromote_numFrames (p : Page) (f : Frame) (s : State) : (tlbPromote p f s).numFrames = s.numFrames := rfl
@[simp] theorem tlbPromote_policy (p : Page) (f : Frame) (s : State) : (tlbPromote p f s).policy = s.policy := rfl
@[simp] theorem tlbPromote_halted (p : Page) (f : Frame) (s : State) : (tlbPromote p f s).halted = s.halted := rfl
@[simp] theorem tlbPromote_err (p : Page) (f : Frame) (s : State) : (tlbPromote p f s).err = s.err := rfl
@[simp] theorem tlbPromote_errCode (p : Page) (f : Frame) (s : State) : (tlbPromote p f s).errCode = s.errCode := rfl
@[simp] theorem tlbPromote_total (p : Page) (f : Frame) (s : State) : (tlbPromote p f s).total = s.total := rfl
@[simp] theorem tlbPromote_pageFaults (p : Page) (f : Frame) (s : State) : (tlbPromote p f s).pageFaults = s.pageFaults := rfl
@[simp] theorem tlbPromote_tlbHits (p : Page) (f : Frame) (s : State) : (tlbPromote p f s).tlbHits = s.tlbHits := rfl
@[simp] theorem tlbPromote_tlbMisses (p : Page) (f : Frame) (s : State) : (tlbPromote p f s).tlbMisses = s.tlbMisses := rfl
@[simp] theorem tlbPromote_tlbq (p : Page) (f : Frame) (s : State) : (tlbPromote p f s).tlbq = dropPage s.tlbq p ++ [(p, f)] := rfl
@[simp] theorem tlbPromote_pt (p : Page) (f : Frame) (s : State) : (tlbPromote p f s).pt = s.pt := rfl
@[simp] theorem tlbPromote_fs (p : Page) (f : Frame) (s : State) : (tlbPromote p f s).fs = s.fs := rfl
@[simp] theorem tlbPromote_owner (p : Page) (f : Frame) (s : State) : (tlbPromote p f s).owner = s.owner := rfl
@[simp] theorem tlbPromote_cursor (p : Page) (f : Frame) (s : State) : (tlbPromote p f s).cursor = s.cursor := rfl
@[simp] theorem tlbPromote_filled (p : Page) (f : Frame) (s : State) : (tlbPromote p f s).filled = s.filled := rfl
@[simp] theorem tlbPromote_lruq (p : Page) (f : Frame) (s : State) : (tlbPromote p f s).lruq = s.lruq := rfl
@[simp] theorem tlbPromote_fsDraw (p : Page) (f : Frame) (s : State) : (tlbPromote p f s).fsDraw = s.fsDraw := rfl
@[simp] theorem tlbPromote_bs (p : Page) (f : Frame) (s : State) : (tlbPromote p f s).bs = s.bs := rfl
@[simp] theorem tlbPromote_bsAnswers (p : Page) (f : Frame) (s : State) : (tlbPromote p f s).bsAnswers = s.bsAnswers := rfl
@[simp] theorem tlbPromote_bsReads (p : Page) (f : Frame) (s : State) : (tlbPromote p f s).bsReads = s.bsReads := rfl
@[simp] theorem tlbPromote_trace (p : Page) (f : Frame) (s : State) : (tlbPromote p f s).trace = s.trace := rfl
@[simp] theorem tlbPromote_nextFill (p : Page) (f : Frame) (s : State) : (tlbPromote p f s).nextFill = s.nextFill := rfl
@[simp] theorem tlbPromote_cntWidth (p : Page) (f : Frame) (s : State) : (tlbPromote p f s).cntWidth = s.cntWidth := rfl
@[simp] theorem tlbPromote_host (p : Page) (f : Frame) (s : State) : (tlbPromote p f s).host = s.host := rfl
@[simp] theorem tlbPromote_sent (p : Page) (f : Frame) (s : State) : (tlbPromote p f s).sent = s.sent := rfl

/-! ### tlbInvalidate -/

@[simp] theorem tlbInvalidate_numFrames (p : Page) (s : State) : (tlbInvalidate p s).numFrames = s.numFrames := rfl
@[simp] theorem tlbInvalidate_policy (p : Page) (s : State) : (tlbInvalidate p s).policy = s.policy := rfl
@[simp] theorem tlbInvalidate_halted (p : Page) (s : State) : (tlbInvalidate p s).halted = s.halted := rfl
@[simp] theorem tlbInvalidate_err (p : Page) (s : State) : (tlbInvalidate p s).err = s.err := rfl
@[simp] theorem tlbInvalidate_errCode (p : Page) (s : State) : (tlbInvalidate p s).errCode = s.errCode := rfl
@[simp] theorem tlbInvalidate_total (p : Page) (s : State) : (tlbInvalidate p s).total = s.total := rfl
@[simp] theorem tlbInvalidate_pageFaults (p : Page) (s : State) : (tlbInvalidate p s).pageFaults = s.pageFaults := rfl
@[simp] theorem tlbInvalidate_tlbHits (p : Page) (s : State) : (tlbInvalidate p s).tlbHits = s.tlbHits := rfl
@[simp] theorem tlbInvalidate_tlbMisses (p : Page) (s : State) : (tlbInvalidate p s).tlbMisses = s.tlbMisses := rfl
@[simp] theorem tlbInvalidate_tlbq (p : Page) (s : State) : (tlbInvalidate p s).tlbq = dropPage s.tlbq p := rfl
@[simp] theorem tlbInvalidate_pt (p : Page) (s : State) : (tlbInvalidate p s).pt = s.pt := rfl
@[simp] theorem tlbInvalidate_fs (p : Page) (s : State) : (tlbInvalidate p s).fs = s.fs := rfl
@[simp] theorem tlbInvalidate_owner (p : Page) (s : State) : (tlbInvalidate p s).owner = s.owner := rfl
@[simp] theorem tlbInvalidate_cursor (p : Page) (s : State) : (tlbInvalidate p s).cursor = s.cursor := rfl
@[simp] theorem tlbInvalidate_filled (p : Page) (s : State) : (tlbInvalidate p s).filled = s.filled := rfl
@[simp] theorem tlbInvalidate_lruq (p : Page) (s : State) : (tlbInvalidate p s).lruq = s.lruq := rfl
@[simp] theorem tlbInvalidate_fsDraw (p : Page) (s : State) : (tlbInvalidate p s).fsDraw = s.fsDraw := rfl
@[simp] theorem tlbInvalidate_bs (p : Page) (s : State) : (tlbInvalidate p s).bs = s.bs := rfl
@[simp] theorem tlbInvalidate_bsAnswers (p : Page) (s : State) : (tlbInvalidate p s).bsAnswers = s.bsAnswers := rfl
@[simp] theorem tlbInvalidate_bsReads (p : Page) (s : State) : (tlbInvalidate p s).bsReads = s.bsReads := rfl
@[simp] theorem tlbInvalidate_trace (p : Page) (s : State) : (tlbInvalidate p s).trace = s.trace := rfl
@[simp] theorem tlbInvalidate_nextFill (p : Page) (s : State) : (tlbInvalidate p s).nextFill = s.nextFill := rfl
@[simp] theorem tlbInvalidate_cntWidth (p : Page) (s : State) : (tlbInvalidate p s).cntWidth = s.cntWidth := rfl
@[simp] theorem tlbInvalidate_host (p : Page) (s : State) : (tlbInvalidate p s).host = s.host := rfl
@[simp] theorem tlbInvalidate_sent (p : Page) (s : State) : (tlbInvalidate p s).sent = s.sent := rfl

/-! ### setPt -/

@[simp] theorem setPt_numFrames (p : Page) (e : Option Frame) (s : State) : (setPt p e s).numFrames = s.numFrames := rfl
@[simp] theorem setPt_policy (p : Page) (e : Option Frame) (s : State) : (setPt p e s).policy = s.policy := rfl
@[simp] theorem setPt_halted (p : Page) (e : Option Frame) (s : State) : (setPt p e s).halted = s.halted := rfl
@[simp] theorem setPt_err (p : Page) (e : Option Frame) (s : State) : (setPt p e s).err = s.err := rfl
@[simp] theorem setPt_errCode (p : Page) (e : Option Frame) (s : State) : (setPt p e s).errCode = s.errCode := rfl
@[simp] theorem setPt_total (p : Page) (e : Option Frame) (s : State) : (setPt p e s).total = s.total := rfl
@[simp] theorem setPt_pageFaults (p : Page) (e : Option Frame) (s : State) : (setPt p e s).pageFaults = s.pageFaults := rfl
@[simp] theorem setPt_tlbHits (p : Page) (e : Option Frame) (s : State) : (setPt p e s).tlbHits = s.tlbHits := rfl
@[simp] theorem setPt_tlbMisses (p : Page) (e : Option Frame) (s : State) : (setPt p e s).tlbMisses = s.tlbMisses := rfl
@[simp] theorem setPt_tlbq (p : Page) (e : Option Frame) (s : State) : (setPt p e s).tlbq = s.tlbq := rfl
@[simp] theorem setPt_pt (p : Page) (e : Option Frame) (s : State) : (setPt p e s).pt = s.pt.set p.toNat e := rfl
@[simp] theorem setPt_fs (p : Page) (e : Option Frame) (s : State) : (setPt p e s).fs = s.fs := rfl
@[simp] theorem setPt_owner (p : Page) (e : Option Frame) (s : State) : (setPt p e s).owner = s.owner := rfl
@[simp] theorem setPt_cursor (p : Page) (e : Option Frame) (s : State) : (setPt p e s).cursor = s.cursor := rfl
@[simp] theorem setPt_filled (p : Page) (e : Option Frame) (s : State) : (setPt p e s).filled = s.filled := rfl
@[simp] theorem setPt_lruq (p : Page) (e : Option Frame) (s : State) : (setPt p e s).lruq = s.lruq := rfl
@[simp] theorem setPt_fsDraw (p : Page) (e : Option Frame) (s : State) : (setPt p e s).fsDraw = s.fsDraw := rfl
@[simp] theorem setPt_bs (p : Page) (e : Option Frame) (s : State) : (setPt p e s).bs = s.bs := rfl
@[simp] theorem setPt_bsAnswers (p : Page) (e : Option Frame) (s : State) : (setPt p e s).bsAnswers = s.bsAnswers := rfl
@[simp] theorem setPt_bsReads (p : Page) (e : Option Frame) (s : State) : (setPt p e s).bsReads = s.bsReads := rfl
@[simp] theorem setPt_trace (p : Page) (e : Option Frame) (s : State) : (setPt p e s).trace = s.trace := rfl
@[simp] theorem setPt_nextFill (p : Page) (e : Option Frame) (s : State) : (setPt p e s).nextFill = s.nextFill := rfl
@[simp] theorem setPt_cntWidth (p : Page) (e : Option Frame) (s : State) : (setPt p e s).cntWidth = s.cntWidth := rfl
@[simp] theorem setPt_host (p : Page) (e : Option Frame) (s : State) : (setPt p e s).host = s.host := rfl
@[simp] theorem setPt_sent (p : Page) (e : Option Frame) (s : State) : (setPt p e s).sent = s.sent := rfl

/-! ### setOwner -/

@[simp] theorem setOwner_numFrames (f : Frame) (e : Option Page) (s : State) : (setOwner f e s).numFrames = s.numFrames := rfl
@[simp] theorem setOwner_policy (f : Frame) (e : Option Page) (s : State) : (setOwner f e s).policy = s.policy := rfl
@[simp] theorem setOwner_halted (f : Frame) (e : Option Page) (s : State) : (setOwner f e s).halted = s.halted := rfl
@[simp] theorem setOwner_err (f : Frame) (e : Option Page) (s : State) : (setOwner f e s).err = s.err := rfl
@[simp] theorem setOwner_errCode (f : Frame) (e : Option Page) (s : State) : (setOwner f e s).errCode = s.errCode := rfl
@[simp] theorem setOwner_total (f : Frame) (e : Option Page) (s : State) : (setOwner f e s).total = s.total := rfl
@[simp] theorem setOwner_pageFaults (f : Frame) (e : Option Page) (s : State) : (setOwner f e s).pageFaults = s.pageFaults := rfl
@[simp] theorem setOwner_tlbHits (f : Frame) (e : Option Page) (s : State) : (setOwner f e s).tlbHits = s.tlbHits := rfl
@[simp] theorem setOwner_tlbMisses (f : Frame) (e : Option Page) (s : State) : (setOwner f e s).tlbMisses = s.tlbMisses := rfl
@[simp] theorem setOwner_tlbq (f : Frame) (e : Option Page) (s : State) : (setOwner f e s).tlbq = s.tlbq := rfl
@[simp] theorem setOwner_pt (f : Frame) (e : Option Page) (s : State) : (setOwner f e s).pt = s.pt := rfl
@[simp] theorem setOwner_fs (f : Frame) (e : Option Page) (s : State) : (setOwner f e s).fs = s.fs := rfl
@[simp] theorem setOwner_owner (f : Frame) (e : Option Page) (s : State) : (setOwner f e s).owner = s.owner.set f.toNat e := rfl
@[simp] theorem setOwner_cursor (f : Frame) (e : Option Page) (s : State) : (setOwner f e s).cursor = s.cursor := rfl
@[simp] theorem setOwner_filled (f : Frame) (e : Option Page) (s : State) : (setOwner f e s).filled = s.filled := rfl
@[simp] theorem setOwner_lruq (f : Frame) (e : Option Page) (s : State) : (setOwner f e s).lruq = s.lruq := rfl
@[simp] theorem setOwner_fsDraw (f : Frame) (e : Option Page) (s : State) : (setOwner f e s).fsDraw = s.fsDraw := rfl
@[simp] theorem setOwner_bs (f : Frame) (e : Option Page) (s : State) : (setOwner f e s).bs = s.bs := rfl
@[simp] theorem setOwner_bsAnswers (f : Frame) (e : Option Page) (s : State) : (setOwner f e s).bsAnswers = s.bsAnswers := rfl
@[simp] theorem setOwner_bsReads (f : Frame) (e : Option Page) (s : State) : (setOwner f e s).bsReads = s.bsReads := rfl
@[simp] theorem setOwner_trace (f : Frame) (e : Option Page) (s : State) : (setOwner f e s).trace = s.trace := rfl
@[simp] theorem setOwner_nextFill (f : Frame) (e : Option Page) (s : State) : (setOwner f e s).nextFill = s.nextFill := rfl
@[simp] theorem setOwner_cntWidth (f : Frame) (e : Option Page) (s : State) : (setOwner f e s).cntWidth = s.cntWidth := rfl
@[simp] theorem setOwner_host (f : Frame) (e : Option Page) (s : State) : (setOwner f e s).host = s.host := rfl
@[simp] theorem setOwner_sent (f : Frame) (e : Option Page) (s : State) : (setOwner f e s).sent = s.sent := rfl

/-! ### advanceCursor -/

@[simp] theorem advanceCursor_numFrames (s : State) : (advanceCursor s).numFrames = s.numFrames := rfl
@[simp] theorem advanceCursor_policy (s : State) : (advanceCursor s).policy = s.policy := rfl
@[simp] theorem advanceCursor_halted (s : State) : (advanceCursor s).halted = s.halted := rfl
@[simp] theorem advanceCursor_err (s : State) : (advanceCursor s).err = s.err := rfl
@[simp] theorem advanceCursor_errCode (s : State) : (advanceCursor s).errCode = s.errCode := rfl
@[simp] theorem advanceCursor_total (s : State) : (advanceCursor s).total = s.total := rfl
@[simp] theorem advanceCursor_pageFaults (s : State) : (advanceCursor s).pageFaults = s.pageFaults := rfl
@[simp] theorem advanceCursor_tlbHits (s : State) : (advanceCursor s).tlbHits = s.tlbHits := rfl
@[simp] theorem advanceCursor_tlbMisses (s : State) : (advanceCursor s).tlbMisses = s.tlbMisses := rfl
@[simp] theorem advanceCursor_tlbq (s : State) : (advanceCursor s).tlbq = s.tlbq := rfl
@[simp] theorem advanceCursor_pt (s : State) : (advanceCursor s).pt = s.pt := rfl
@[simp] theorem advanceCursor_fs (s : State) : (advanceCursor s).fs = s.fs := rfl
@[simp] theorem advanceCursor_owner (s : State) : (advanceCursor s).owner = s.owner := rfl
@[simp] theorem advanceCursor_cursor (s : State) : (advanceCursor s).cursor = BitVec.ofNat 8 ((s.cursor.toNat + 1) % s.numFrames.toNat) := rfl
@[simp] theorem advanceCursor_filled (s : State) : (advanceCursor s).filled = s.filled := rfl
@[simp] theorem advanceCursor_lruq (s : State) : (advanceCursor s).lruq = s.lruq := rfl
@[simp] theorem advanceCursor_fsDraw (s : State) : (advanceCursor s).fsDraw = s.fsDraw := rfl
@[simp] theorem advanceCursor_bs (s : State) : (advanceCursor s).bs = s.bs := rfl
@[simp] theorem advanceCursor_bsAnswers (s : State) : (advanceCursor s).bsAnswers = s.bsAnswers := rfl
@[simp] theorem advanceCursor_bsReads (s : State) : (advanceCursor s).bsReads = s.bsReads := rfl
@[simp] theorem advanceCursor_trace (s : State) : (advanceCursor s).trace = s.trace := rfl
@[simp] theorem advanceCursor_nextFill (s : State) : (advanceCursor s).nextFill = s.nextFill := rfl
@[simp] theorem advanceCursor_cntWidth (s : State) : (advanceCursor s).cntWidth = s.cntWidth := rfl
@[simp] theorem advanceCursor_host (s : State) : (advanceCursor s).host = s.host := rfl
@[simp] theorem advanceCursor_sent (s : State) : (advanceCursor s).sent = s.sent := rfl

/-! ### countFill -/

@[simp] theorem countFill_numFrames (s : State) : (countFill s).numFrames = s.numFrames := rfl
@[simp] theorem countFill_policy (s : State) : (countFill s).policy = s.policy := rfl
@[simp] theorem countFill_halted (s : State) : (countFill s).halted = s.halted := rfl
@[simp] theorem countFill_err (s : State) : (countFill s).err = s.err := rfl
@[simp] theorem countFill_errCode (s : State) : (countFill s).errCode = s.errCode := rfl
@[simp] theorem countFill_total (s : State) : (countFill s).total = s.total := rfl
@[simp] theorem countFill_pageFaults (s : State) : (countFill s).pageFaults = s.pageFaults := rfl
@[simp] theorem countFill_tlbHits (s : State) : (countFill s).tlbHits = s.tlbHits := rfl
@[simp] theorem countFill_tlbMisses (s : State) : (countFill s).tlbMisses = s.tlbMisses := rfl
@[simp] theorem countFill_tlbq (s : State) : (countFill s).tlbq = s.tlbq := rfl
@[simp] theorem countFill_pt (s : State) : (countFill s).pt = s.pt := rfl
@[simp] theorem countFill_fs (s : State) : (countFill s).fs = s.fs := rfl
@[simp] theorem countFill_owner (s : State) : (countFill s).owner = s.owner := rfl
@[simp] theorem countFill_cursor (s : State) : (countFill s).cursor = s.cursor := rfl
@[simp] theorem countFill_filled (s : State) : (countFill s).filled = s.filled + 1 := rfl
@[simp] theorem countFill_lruq (s : State) : (countFill s).lruq = s.lruq := rfl
@[simp] theorem countFill_fsDraw (s : State) : (countFill s).fsDraw = s.fsDraw := rfl
@[simp] theorem countFill_bs (s : State) : (countFill s).bs = s.bs := rfl
@[simp] theorem countFill_bsAnswers (s : State) : (countFill s).bsAnswers = s.bsAnswers := rfl
@[simp] theorem countFill_bsReads (s : State) : (countFill s).bsReads = s.bsReads := rfl
@[simp] theorem countFill_trace (s : State) : (countFill s).trace = s.trace := rfl
@[simp] theorem countFill_nextFill (s : State) : (countFill s).nextFill = s.nextFill := rfl
@[simp] theorem countFill_cntWidth (s : State) : (countFill s).cntWidth = s.cntWidth := rfl
@[simp] theorem countFill_host (s : State) : (countFill s).host = s.host := rfl
@[simp] theorem countFill_sent (s : State) : (countFill s).sent = s.sent := rfl

/-! ### takeMove -/

@[simp] theorem takeMove_numFrames (m : List HostMove) (s : State) : (takeMove m s).numFrames = s.numFrames := rfl
@[simp] theorem takeMove_policy (m : List HostMove) (s : State) : (takeMove m s).policy = s.policy := rfl
@[simp] theorem takeMove_halted (m : List HostMove) (s : State) : (takeMove m s).halted = s.halted := rfl
@[simp] theorem takeMove_err (m : List HostMove) (s : State) : (takeMove m s).err = s.err := rfl
@[simp] theorem takeMove_errCode (m : List HostMove) (s : State) : (takeMove m s).errCode = s.errCode := rfl
@[simp] theorem takeMove_total (m : List HostMove) (s : State) : (takeMove m s).total = s.total := rfl
@[simp] theorem takeMove_pageFaults (m : List HostMove) (s : State) : (takeMove m s).pageFaults = s.pageFaults := rfl
@[simp] theorem takeMove_tlbHits (m : List HostMove) (s : State) : (takeMove m s).tlbHits = s.tlbHits := rfl
@[simp] theorem takeMove_tlbMisses (m : List HostMove) (s : State) : (takeMove m s).tlbMisses = s.tlbMisses := rfl
@[simp] theorem takeMove_tlbq (m : List HostMove) (s : State) : (takeMove m s).tlbq = s.tlbq := rfl
@[simp] theorem takeMove_pt (m : List HostMove) (s : State) : (takeMove m s).pt = s.pt := rfl
@[simp] theorem takeMove_fs (m : List HostMove) (s : State) : (takeMove m s).fs = s.fs := rfl
@[simp] theorem takeMove_owner (m : List HostMove) (s : State) : (takeMove m s).owner = s.owner := rfl
@[simp] theorem takeMove_cursor (m : List HostMove) (s : State) : (takeMove m s).cursor = s.cursor := rfl
@[simp] theorem takeMove_filled (m : List HostMove) (s : State) : (takeMove m s).filled = s.filled := rfl
@[simp] theorem takeMove_lruq (m : List HostMove) (s : State) : (takeMove m s).lruq = s.lruq := rfl
@[simp] theorem takeMove_fsDraw (m : List HostMove) (s : State) : (takeMove m s).fsDraw = s.fsDraw := rfl
@[simp] theorem takeMove_bs (m : List HostMove) (s : State) : (takeMove m s).bs = s.bs := rfl
@[simp] theorem takeMove_bsAnswers (m : List HostMove) (s : State) : (takeMove m s).bsAnswers = s.bsAnswers := rfl
@[simp] theorem takeMove_bsReads (m : List HostMove) (s : State) : (takeMove m s).bsReads = s.bsReads := rfl
@[simp] theorem takeMove_trace (m : List HostMove) (s : State) : (takeMove m s).trace = s.trace := rfl
@[simp] theorem takeMove_nextFill (m : List HostMove) (s : State) : (takeMove m s).nextFill = s.nextFill := rfl
@[simp] theorem takeMove_cntWidth (m : List HostMove) (s : State) : (takeMove m s).cntWidth = s.cntWidth := rfl
@[simp] theorem takeMove_host (m : List HostMove) (s : State) : (takeMove m s).host = m := rfl
@[simp] theorem takeMove_sent (m : List HostMove) (s : State) : (takeMove m s).sent = s.sent := rfl

/-! ### loadMemories -/

@[simp] theorem loadMemories_numFrames (b : List Host.Cell) (r : List Addr) (s : State) : (loadMemories b r s).numFrames = s.numFrames := rfl
@[simp] theorem loadMemories_policy (b : List Host.Cell) (r : List Addr) (s : State) : (loadMemories b r s).policy = s.policy := rfl
@[simp] theorem loadMemories_halted (b : List Host.Cell) (r : List Addr) (s : State) : (loadMemories b r s).halted = s.halted := rfl
@[simp] theorem loadMemories_err (b : List Host.Cell) (r : List Addr) (s : State) : (loadMemories b r s).err = s.err := rfl
@[simp] theorem loadMemories_errCode (b : List Host.Cell) (r : List Addr) (s : State) : (loadMemories b r s).errCode = s.errCode := rfl
@[simp] theorem loadMemories_total (b : List Host.Cell) (r : List Addr) (s : State) : (loadMemories b r s).total = s.total := rfl
@[simp] theorem loadMemories_pageFaults (b : List Host.Cell) (r : List Addr) (s : State) : (loadMemories b r s).pageFaults = s.pageFaults := rfl
@[simp] theorem loadMemories_tlbHits (b : List Host.Cell) (r : List Addr) (s : State) : (loadMemories b r s).tlbHits = s.tlbHits := rfl
@[simp] theorem loadMemories_tlbMisses (b : List Host.Cell) (r : List Addr) (s : State) : (loadMemories b r s).tlbMisses = s.tlbMisses := rfl
@[simp] theorem loadMemories_tlbq (b : List Host.Cell) (r : List Addr) (s : State) : (loadMemories b r s).tlbq = s.tlbq := rfl
@[simp] theorem loadMemories_pt (b : List Host.Cell) (r : List Addr) (s : State) : (loadMemories b r s).pt = s.pt := rfl
@[simp] theorem loadMemories_fs (b : List Host.Cell) (r : List Addr) (s : State) : (loadMemories b r s).fs = s.fs := rfl
@[simp] theorem loadMemories_owner (b : List Host.Cell) (r : List Addr) (s : State) : (loadMemories b r s).owner = s.owner := rfl
@[simp] theorem loadMemories_cursor (b : List Host.Cell) (r : List Addr) (s : State) : (loadMemories b r s).cursor = s.cursor := rfl
@[simp] theorem loadMemories_filled (b : List Host.Cell) (r : List Addr) (s : State) : (loadMemories b r s).filled = s.filled := rfl
@[simp] theorem loadMemories_lruq (b : List Host.Cell) (r : List Addr) (s : State) : (loadMemories b r s).lruq = s.lruq := rfl
@[simp] theorem loadMemories_fsDraw (b : List Host.Cell) (r : List Addr) (s : State) : (loadMemories b r s).fsDraw = s.fsDraw := rfl
@[simp] theorem loadMemories_bs (b : List Host.Cell) (r : List Addr) (s : State) : (loadMemories b r s).bs = s.bs := rfl
@[simp] theorem loadMemories_bsAnswers (b : List Host.Cell) (r : List Addr) (s : State) : (loadMemories b r s).bsAnswers = s.bsAnswers := rfl
@[simp] theorem loadMemories_bsReads (b : List Host.Cell) (r : List Addr) (s : State) : (loadMemories b r s).bsReads = s.bsReads := rfl
@[simp] theorem loadMemories_trace (b : List Host.Cell) (r : List Addr) (s : State) : (loadMemories b r s).trace = s.trace := rfl
@[simp] theorem loadMemories_nextFill (b : List Host.Cell) (r : List Addr) (s : State) : (loadMemories b r s).nextFill = some { bytes := b, trace := r } := rfl
@[simp] theorem loadMemories_cntWidth (b : List Host.Cell) (r : List Addr) (s : State) : (loadMemories b r s).cntWidth = s.cntWidth := rfl
@[simp] theorem loadMemories_host (b : List Host.Cell) (r : List Addr) (s : State) : (loadMemories b r s).host = s.host := rfl
@[simp] theorem loadMemories_sent (b : List Host.Cell) (r : List Addr) (s : State) : (loadMemories b r s).sent = s.sent := rfl

/-! ### sendWord -/

@[simp] theorem sendWord_numFrames (w : Word) (s : State) : (sendWord w s).numFrames = s.numFrames := rfl
@[simp] theorem sendWord_policy (w : Word) (s : State) : (sendWord w s).policy = s.policy := rfl
@[simp] theorem sendWord_halted (w : Word) (s : State) : (sendWord w s).halted = s.halted := rfl
@[simp] theorem sendWord_err (w : Word) (s : State) : (sendWord w s).err = s.err := rfl
@[simp] theorem sendWord_errCode (w : Word) (s : State) : (sendWord w s).errCode = s.errCode := rfl
@[simp] theorem sendWord_total (w : Word) (s : State) : (sendWord w s).total = s.total := rfl
@[simp] theorem sendWord_pageFaults (w : Word) (s : State) : (sendWord w s).pageFaults = s.pageFaults := rfl
@[simp] theorem sendWord_tlbHits (w : Word) (s : State) : (sendWord w s).tlbHits = s.tlbHits := rfl
@[simp] theorem sendWord_tlbMisses (w : Word) (s : State) : (sendWord w s).tlbMisses = s.tlbMisses := rfl
@[simp] theorem sendWord_tlbq (w : Word) (s : State) : (sendWord w s).tlbq = s.tlbq := rfl
@[simp] theorem sendWord_pt (w : Word) (s : State) : (sendWord w s).pt = s.pt := rfl
@[simp] theorem sendWord_fs (w : Word) (s : State) : (sendWord w s).fs = s.fs := rfl
@[simp] theorem sendWord_owner (w : Word) (s : State) : (sendWord w s).owner = s.owner := rfl
@[simp] theorem sendWord_cursor (w : Word) (s : State) : (sendWord w s).cursor = s.cursor := rfl
@[simp] theorem sendWord_filled (w : Word) (s : State) : (sendWord w s).filled = s.filled := rfl
@[simp] theorem sendWord_lruq (w : Word) (s : State) : (sendWord w s).lruq = s.lruq := rfl
@[simp] theorem sendWord_fsDraw (w : Word) (s : State) : (sendWord w s).fsDraw = s.fsDraw := rfl
@[simp] theorem sendWord_bs (w : Word) (s : State) : (sendWord w s).bs = s.bs := rfl
@[simp] theorem sendWord_bsAnswers (w : Word) (s : State) : (sendWord w s).bsAnswers = s.bsAnswers := rfl
@[simp] theorem sendWord_bsReads (w : Word) (s : State) : (sendWord w s).bsReads = s.bsReads := rfl
@[simp] theorem sendWord_trace (w : Word) (s : State) : (sendWord w s).trace = s.trace := rfl
@[simp] theorem sendWord_nextFill (w : Word) (s : State) : (sendWord w s).nextFill = s.nextFill := rfl
@[simp] theorem sendWord_cntWidth (w : Word) (s : State) : (sendWord w s).cntWidth = s.cntWidth := rfl
@[simp] theorem sendWord_host (w : Word) (s : State) : (sendWord w s).host = .command w :: s.host := rfl
@[simp] theorem sendWord_sent (w : Word) (s : State) : (sendWord w s).sent = s.sent := rfl

/-! ### startRun -/

@[simp] theorem startRun_numFrames (n : BitVec 9) (c : Policy) (s : State) : (startRun n c s).numFrames = n := rfl
@[simp] theorem startRun_policy (n : BitVec 9) (c : Policy) (s : State) : (startRun n c s).policy = c := rfl
@[simp] theorem startRun_halted (n : BitVec 9) (c : Policy) (s : State) : (startRun n c s).halted = false := rfl
@[simp] theorem startRun_err (n : BitVec 9) (c : Policy) (s : State) : (startRun n c s).err = false := rfl
@[simp] theorem startRun_errCode (n : BitVec 9) (c : Policy) (s : State) : (startRun n c s).errCode = .none := rfl
@[simp] theorem startRun_total (n : BitVec 9) (c : Policy) (s : State) : (startRun n c s).total = 0 := rfl
@[simp] theorem startRun_pageFaults (n : BitVec 9) (c : Policy) (s : State) : (startRun n c s).pageFaults = 0 := rfl
@[simp] theorem startRun_tlbHits (n : BitVec 9) (c : Policy) (s : State) : (startRun n c s).tlbHits = 0 := rfl
@[simp] theorem startRun_tlbMisses (n : BitVec 9) (c : Policy) (s : State) : (startRun n c s).tlbMisses = 0 := rfl
@[simp] theorem startRun_tlbq (n : BitVec 9) (c : Policy) (s : State) : (startRun n c s).tlbq = [] := rfl
@[simp] theorem startRun_pt (n : BitVec 9) (c : Policy) (s : State) : (startRun n c s).pt = Vector.replicate 256 none := rfl
@[simp] theorem startRun_fs (n : BitVec 9) (c : Policy) (s : State) : (startRun n c s).fs = [] := rfl
@[simp] theorem startRun_owner (n : BitVec 9) (c : Policy) (s : State) : (startRun n c s).owner = Vector.replicate 256 none := rfl
@[simp] theorem startRun_cursor (n : BitVec 9) (c : Policy) (s : State) : (startRun n c s).cursor = 0 := rfl
@[simp] theorem startRun_filled (n : BitVec 9) (c : Policy) (s : State) : (startRun n c s).filled = 0 := rfl
@[simp] theorem startRun_lruq (n : BitVec 9) (c : Policy) (s : State) : (startRun n c s).lruq = [] := rfl
@[simp] theorem startRun_fsDraw (n : BitVec 9) (c : Policy) (s : State) : (startRun n c s).fsDraw = s.fsDraw + 1 := rfl
@[simp] theorem startRun_bs (n : BitVec 9) (c : Policy) (s : State) : (startRun n c s).bs = nextBs s := rfl
@[simp] theorem startRun_bsAnswers (n : BitVec 9) (c : Policy) (s : State) : (startRun n c s).bsAnswers = s.bsAnswers := rfl
@[simp] theorem startRun_bsReads (n : BitVec 9) (c : Policy) (s : State) : (startRun n c s).bsReads = s.bsReads := rfl
@[simp] theorem startRun_trace (n : BitVec 9) (c : Policy) (s : State) : (startRun n c s).trace = nextTrace s := rfl
@[simp] theorem startRun_nextFill (n : BitVec 9) (c : Policy) (s : State) : (startRun n c s).nextFill = none := rfl
@[simp] theorem startRun_cntWidth (n : BitVec 9) (c : Policy) (s : State) : (startRun n c s).cntWidth = s.cntWidth := rfl
@[simp] theorem startRun_host (n : BitVec 9) (c : Policy) (s : State) : (startRun n c s).host = s.host := rfl
@[simp] theorem startRun_sent (n : BitVec 9) (c : Policy) (s : State) : (startRun n c s).sent = s.sent := rfl

/-! ### ptUnmap -/

@[simp] theorem ptUnmap_numFrames (p : Page) (s : State) : (ptUnmap p s).numFrames = s.numFrames := by unfold ptUnmap; split <;> rfl
@[simp] theorem ptUnmap_policy (p : Page) (s : State) : (ptUnmap p s).policy = s.policy := by unfold ptUnmap; split <;> rfl
@[simp] theorem ptUnmap_halted (p : Page) (s : State) : (ptUnmap p s).halted = s.halted := by unfold ptUnmap; split <;> rfl
@[simp] theorem ptUnmap_err (p : Page) (s : State) : (ptUnmap p s).err = s.err := by unfold ptUnmap; split <;> rfl
@[simp] theorem ptUnmap_errCode (p : Page) (s : State) : (ptUnmap p s).errCode = s.errCode := by unfold ptUnmap; split <;> rfl
@[simp] theorem ptUnmap_total (p : Page) (s : State) : (ptUnmap p s).total = s.total := by unfold ptUnmap; split <;> rfl
@[simp] theorem ptUnmap_pageFaults (p : Page) (s : State) : (ptUnmap p s).pageFaults = s.pageFaults := by unfold ptUnmap; split <;> rfl
@[simp] theorem ptUnmap_tlbHits (p : Page) (s : State) : (ptUnmap p s).tlbHits = s.tlbHits := by unfold ptUnmap; split <;> rfl
@[simp] theorem ptUnmap_tlbMisses (p : Page) (s : State) : (ptUnmap p s).tlbMisses = s.tlbMisses := by unfold ptUnmap; split <;> rfl
@[simp] theorem ptUnmap_tlbq (p : Page) (s : State) : (ptUnmap p s).tlbq = s.tlbq := by unfold ptUnmap; split <;> rfl
@[simp] theorem ptUnmap_pt (p : Page) (s : State) : (ptUnmap p s).pt = s.pt.set p.toNat none := by unfold ptUnmap; split <;> rfl
@[simp] theorem ptUnmap_fs (p : Page) (s : State) : (ptUnmap p s).fs = s.fs := by unfold ptUnmap; split <;> rfl
@[simp] theorem ptUnmap_cursor (p : Page) (s : State) : (ptUnmap p s).cursor = s.cursor := by unfold ptUnmap; split <;> rfl
@[simp] theorem ptUnmap_filled (p : Page) (s : State) : (ptUnmap p s).filled = s.filled := by unfold ptUnmap; split <;> rfl
@[simp] theorem ptUnmap_lruq (p : Page) (s : State) : (ptUnmap p s).lruq = s.lruq := by unfold ptUnmap; split <;> rfl
@[simp] theorem ptUnmap_fsDraw (p : Page) (s : State) : (ptUnmap p s).fsDraw = s.fsDraw := by unfold ptUnmap; split <;> rfl
@[simp] theorem ptUnmap_bs (p : Page) (s : State) : (ptUnmap p s).bs = s.bs := by unfold ptUnmap; split <;> rfl
@[simp] theorem ptUnmap_bsAnswers (p : Page) (s : State) : (ptUnmap p s).bsAnswers = s.bsAnswers := by unfold ptUnmap; split <;> rfl
@[simp] theorem ptUnmap_bsReads (p : Page) (s : State) : (ptUnmap p s).bsReads = s.bsReads := by unfold ptUnmap; split <;> rfl
@[simp] theorem ptUnmap_trace (p : Page) (s : State) : (ptUnmap p s).trace = s.trace := by unfold ptUnmap; split <;> rfl
@[simp] theorem ptUnmap_nextFill (p : Page) (s : State) : (ptUnmap p s).nextFill = s.nextFill := by unfold ptUnmap; split <;> rfl
@[simp] theorem ptUnmap_cntWidth (p : Page) (s : State) : (ptUnmap p s).cntWidth = s.cntWidth := by unfold ptUnmap; split <;> rfl
@[simp] theorem ptUnmap_host (p : Page) (s : State) : (ptUnmap p s).host = s.host := by unfold ptUnmap; split <;> rfl
@[simp] theorem ptUnmap_sent (p : Page) (s : State) : (ptUnmap p s).sent = s.sent := by unfold ptUnmap; split <;> rfl

/-! ### ptMap -/

@[simp] theorem ptMap_numFrames (p : Page) (f : Frame) (s : State) : (ptMap p f s).numFrames = s.numFrames := by
  unfold ptMap; split <;> (try split) <;> simp
@[simp] theorem ptMap_policy (p : Page) (f : Frame) (s : State) : (ptMap p f s).policy = s.policy := by
  unfold ptMap; split <;> (try split) <;> simp
@[simp] theorem ptMap_halted (p : Page) (f : Frame) (s : State) : (ptMap p f s).halted = s.halted := by
  unfold ptMap; split <;> (try split) <;> simp
@[simp] theorem ptMap_err (p : Page) (f : Frame) (s : State) : (ptMap p f s).err = s.err := by
  unfold ptMap; split <;> (try split) <;> simp
@[simp] theorem ptMap_errCode (p : Page) (f : Frame) (s : State) : (ptMap p f s).errCode = s.errCode := by
  unfold ptMap; split <;> (try split) <;> simp
@[simp] theorem ptMap_total (p : Page) (f : Frame) (s : State) : (ptMap p f s).total = s.total := by
  unfold ptMap; split <;> (try split) <;> simp
@[simp] theorem ptMap_pageFaults (p : Page) (f : Frame) (s : State) : (ptMap p f s).pageFaults = s.pageFaults := by
  unfold ptMap; split <;> (try split) <;> simp
@[simp] theorem ptMap_tlbHits (p : Page) (f : Frame) (s : State) : (ptMap p f s).tlbHits = s.tlbHits := by
  unfold ptMap; split <;> (try split) <;> simp
@[simp] theorem ptMap_tlbMisses (p : Page) (f : Frame) (s : State) : (ptMap p f s).tlbMisses = s.tlbMisses := by
  unfold ptMap; split <;> (try split) <;> simp
@[simp] theorem ptMap_fs (p : Page) (f : Frame) (s : State) : (ptMap p f s).fs = s.fs := by
  unfold ptMap; split <;> (try split) <;> simp
@[simp] theorem ptMap_cursor (p : Page) (f : Frame) (s : State) : (ptMap p f s).cursor = s.cursor := by
  unfold ptMap; split <;> (try split) <;> simp
@[simp] theorem ptMap_filled (p : Page) (f : Frame) (s : State) : (ptMap p f s).filled = s.filled := by
  unfold ptMap; split <;> (try split) <;> simp
@[simp] theorem ptMap_lruq (p : Page) (f : Frame) (s : State) : (ptMap p f s).lruq = s.lruq := by
  unfold ptMap; split <;> (try split) <;> simp
@[simp] theorem ptMap_fsDraw (p : Page) (f : Frame) (s : State) : (ptMap p f s).fsDraw = s.fsDraw := by
  unfold ptMap; split <;> (try split) <;> simp
@[simp] theorem ptMap_bs (p : Page) (f : Frame) (s : State) : (ptMap p f s).bs = s.bs := by
  unfold ptMap; split <;> (try split) <;> simp
@[simp] theorem ptMap_bsAnswers (p : Page) (f : Frame) (s : State) : (ptMap p f s).bsAnswers = s.bsAnswers := by
  unfold ptMap; split <;> (try split) <;> simp
@[simp] theorem ptMap_bsReads (p : Page) (f : Frame) (s : State) : (ptMap p f s).bsReads = s.bsReads := by
  unfold ptMap; split <;> (try split) <;> simp
@[simp] theorem ptMap_trace (p : Page) (f : Frame) (s : State) : (ptMap p f s).trace = s.trace := by
  unfold ptMap; split <;> (try split) <;> simp
@[simp] theorem ptMap_nextFill (p : Page) (f : Frame) (s : State) : (ptMap p f s).nextFill = s.nextFill := by
  unfold ptMap; split <;> (try split) <;> simp
@[simp] theorem ptMap_cntWidth (p : Page) (f : Frame) (s : State) : (ptMap p f s).cntWidth = s.cntWidth := by
  unfold ptMap; split <;> (try split) <;> simp
@[simp] theorem ptMap_host (p : Page) (f : Frame) (s : State) : (ptMap p f s).host = s.host := by
  unfold ptMap; split <;> (try split) <;> simp
@[simp] theorem ptMap_sent (p : Page) (f : Frame) (s : State) : (ptMap p f s).sent = s.sent := by
  unfold ptMap; split <;> (try split) <;> simp

/-! ### evict -/

@[simp] theorem evict_numFrames (f : Frame) (s : State) : (evict f s).numFrames = s.numFrames := by
  unfold evict; split <;> simp
@[simp] theorem evict_policy (f : Frame) (s : State) : (evict f s).policy = s.policy := by
  unfold evict; split <;> simp
@[simp] theorem evict_halted (f : Frame) (s : State) : (evict f s).halted = s.halted := by
  unfold evict; split <;> simp
@[simp] theorem evict_err (f : Frame) (s : State) : (evict f s).err = s.err := by
  unfold evict; split <;> simp
@[simp] theorem evict_errCode (f : Frame) (s : State) : (evict f s).errCode = s.errCode := by
  unfold evict; split <;> simp
@[simp] theorem evict_total (f : Frame) (s : State) : (evict f s).total = s.total := by
  unfold evict; split <;> simp
@[simp] theorem evict_pageFaults (f : Frame) (s : State) : (evict f s).pageFaults = s.pageFaults := by
  unfold evict; split <;> simp
@[simp] theorem evict_tlbHits (f : Frame) (s : State) : (evict f s).tlbHits = s.tlbHits := by
  unfold evict; split <;> simp
@[simp] theorem evict_tlbMisses (f : Frame) (s : State) : (evict f s).tlbMisses = s.tlbMisses := by
  unfold evict; split <;> simp
@[simp] theorem evict_fs (f : Frame) (s : State) : (evict f s).fs = s.fs := by
  unfold evict; split <;> simp
@[simp] theorem evict_cursor (f : Frame) (s : State) : (evict f s).cursor = s.cursor := by
  unfold evict; split <;> simp
@[simp] theorem evict_lruq (f : Frame) (s : State) : (evict f s).lruq = s.lruq := by
  unfold evict; split <;> simp
@[simp] theorem evict_fsDraw (f : Frame) (s : State) : (evict f s).fsDraw = s.fsDraw := by
  unfold evict; split <;> simp
@[simp] theorem evict_bs (f : Frame) (s : State) : (evict f s).bs = s.bs := by
  unfold evict; split <;> simp
@[simp] theorem evict_bsAnswers (f : Frame) (s : State) : (evict f s).bsAnswers = s.bsAnswers := by
  unfold evict; split <;> simp
@[simp] theorem evict_bsReads (f : Frame) (s : State) : (evict f s).bsReads = s.bsReads := by
  unfold evict; split <;> simp
@[simp] theorem evict_trace (f : Frame) (s : State) : (evict f s).trace = s.trace := by
  unfold evict; split <;> simp
@[simp] theorem evict_nextFill (f : Frame) (s : State) : (evict f s).nextFill = s.nextFill := by
  unfold evict; split <;> simp
@[simp] theorem evict_cntWidth (f : Frame) (s : State) : (evict f s).cntWidth = s.cntWidth := by
  unfold evict; split <;> simp
@[simp] theorem evict_host (f : Frame) (s : State) : (evict f s).host = s.host := by
  unfold evict; split <;> simp
@[simp] theorem evict_sent (f : Frame) (s : State) : (evict f s).sent = s.sent := by
  unfold evict; split <;> simp

/-! ### fillFrame -/

@[simp] theorem fillFrame_numFrames (p : Page) (f : Frame) (d : List Byte) (s : State) : (fillFrame p f d s).numFrames = s.numFrames := by
  simp [fillFrame]
@[simp] theorem fillFrame_policy (p : Page) (f : Frame) (d : List Byte) (s : State) : (fillFrame p f d s).policy = s.policy := by
  simp [fillFrame]
@[simp] theorem fillFrame_halted (p : Page) (f : Frame) (d : List Byte) (s : State) : (fillFrame p f d s).halted = s.halted := by
  simp [fillFrame]
@[simp] theorem fillFrame_err (p : Page) (f : Frame) (d : List Byte) (s : State) : (fillFrame p f d s).err = s.err := by
  simp [fillFrame]
@[simp] theorem fillFrame_errCode (p : Page) (f : Frame) (d : List Byte) (s : State) : (fillFrame p f d s).errCode = s.errCode := by
  simp [fillFrame]
@[simp] theorem fillFrame_total (p : Page) (f : Frame) (d : List Byte) (s : State) : (fillFrame p f d s).total = s.total := by
  simp [fillFrame]
@[simp] theorem fillFrame_pageFaults (p : Page) (f : Frame) (d : List Byte) (s : State) : (fillFrame p f d s).pageFaults = s.pageFaults := by
  simp [fillFrame]
@[simp] theorem fillFrame_tlbHits (p : Page) (f : Frame) (d : List Byte) (s : State) : (fillFrame p f d s).tlbHits = s.tlbHits := by
  simp [fillFrame]
@[simp] theorem fillFrame_tlbMisses (p : Page) (f : Frame) (d : List Byte) (s : State) : (fillFrame p f d s).tlbMisses = s.tlbMisses := by
  simp [fillFrame]
@[simp] theorem fillFrame_fs (p : Page) (f : Frame) (d : List Byte) (s : State) : (fillFrame p f d s).fs = s.fs.write (frameBase f) d := by
  simp [fillFrame]
@[simp] theorem fillFrame_cursor (p : Page) (f : Frame) (d : List Byte) (s : State) : (fillFrame p f d s).cursor = BitVec.ofNat 8 ((s.cursor.toNat + 1) % s.numFrames.toNat) := by
  simp [fillFrame]
@[simp] theorem fillFrame_lruq (p : Page) (f : Frame) (d : List Byte) (s : State) : (fillFrame p f d s).lruq = s.lruq := by
  simp [fillFrame]
@[simp] theorem fillFrame_fsDraw (p : Page) (f : Frame) (d : List Byte) (s : State) : (fillFrame p f d s).fsDraw = s.fsDraw := by
  simp [fillFrame]
@[simp] theorem fillFrame_bs (p : Page) (f : Frame) (d : List Byte) (s : State) : (fillFrame p f d s).bs = s.bs := by
  simp [fillFrame]
@[simp] theorem fillFrame_bsAnswers (p : Page) (f : Frame) (d : List Byte) (s : State) : (fillFrame p f d s).bsAnswers = s.bsAnswers := by
  simp [fillFrame]
@[simp] theorem fillFrame_bsReads (p : Page) (f : Frame) (d : List Byte) (s : State) : (fillFrame p f d s).bsReads = s.bsReads := by
  simp [fillFrame]
@[simp] theorem fillFrame_trace (p : Page) (f : Frame) (d : List Byte) (s : State) : (fillFrame p f d s).trace = s.trace := by
  simp [fillFrame]
@[simp] theorem fillFrame_nextFill (p : Page) (f : Frame) (d : List Byte) (s : State) : (fillFrame p f d s).nextFill = s.nextFill := by
  simp [fillFrame]
@[simp] theorem fillFrame_cntWidth (p : Page) (f : Frame) (d : List Byte) (s : State) : (fillFrame p f d s).cntWidth = s.cntWidth := by
  simp [fillFrame]
@[simp] theorem fillFrame_host (p : Page) (f : Frame) (d : List Byte) (s : State) : (fillFrame p f d s).host = s.host := by
  simp [fillFrame]
@[simp] theorem fillFrame_sent (p : Page) (f : Frame) (d : List Byte) (s : State) : (fillFrame p f d s).sent = s.sent := by
  simp [fillFrame]

/-! ### complete -/

@[simp] theorem complete_numFrames (a : Addr) (o : Path) (f : Frame) (s : State) : (complete a o f s).numFrames = s.numFrames := rfl
@[simp] theorem complete_policy (a : Addr) (o : Path) (f : Frame) (s : State) : (complete a o f s).policy = s.policy := rfl
@[simp] theorem complete_halted (a : Addr) (o : Path) (f : Frame) (s : State) : (complete a o f s).halted = s.halted := rfl
@[simp] theorem complete_err (a : Addr) (o : Path) (f : Frame) (s : State) : (complete a o f s).err = s.err := rfl
@[simp] theorem complete_errCode (a : Addr) (o : Path) (f : Frame) (s : State) : (complete a o f s).errCode = s.errCode := rfl
@[simp] theorem complete_total (a : Addr) (o : Path) (f : Frame) (s : State) : (complete a o f s).total = s.total + 1 := rfl
@[simp] theorem complete_tlbq (a : Addr) (o : Path) (f : Frame) (s : State) : (complete a o f s).tlbq = s.tlbq := rfl
@[simp] theorem complete_pt (a : Addr) (o : Path) (f : Frame) (s : State) : (complete a o f s).pt = s.pt := rfl
@[simp] theorem complete_fs (a : Addr) (o : Path) (f : Frame) (s : State) : (complete a o f s).fs = s.fs := rfl
@[simp] theorem complete_owner (a : Addr) (o : Path) (f : Frame) (s : State) : (complete a o f s).owner = s.owner := rfl
@[simp] theorem complete_cursor (a : Addr) (o : Path) (f : Frame) (s : State) : (complete a o f s).cursor = s.cursor := rfl
@[simp] theorem complete_filled (a : Addr) (o : Path) (f : Frame) (s : State) : (complete a o f s).filled = s.filled := rfl
@[simp] theorem complete_lruq (a : Addr) (o : Path) (f : Frame) (s : State) : (complete a o f s).lruq = (s.lruq.filter fun x => x != f) ++ [f] := rfl
@[simp] theorem complete_fsDraw (a : Addr) (o : Path) (f : Frame) (s : State) : (complete a o f s).fsDraw = s.fsDraw := rfl
@[simp] theorem complete_bs (a : Addr) (o : Path) (f : Frame) (s : State) : (complete a o f s).bs = s.bs := rfl
@[simp] theorem complete_bsAnswers (a : Addr) (o : Path) (f : Frame) (s : State) : (complete a o f s).bsAnswers = s.bsAnswers := rfl
@[simp] theorem complete_bsReads (a : Addr) (o : Path) (f : Frame) (s : State) : (complete a o f s).bsReads = s.bsReads := rfl
@[simp] theorem complete_trace (a : Addr) (o : Path) (f : Frame) (s : State) : (complete a o f s).trace = s.trace := rfl
@[simp] theorem complete_nextFill (a : Addr) (o : Path) (f : Frame) (s : State) : (complete a o f s).nextFill = s.nextFill := rfl
@[simp] theorem complete_cntWidth (a : Addr) (o : Path) (f : Frame) (s : State) : (complete a o f s).cntWidth = s.cntWidth := rfl
@[simp] theorem complete_host (a : Addr) (o : Path) (f : Frame) (s : State) : (complete a o f s).host = s.host := rfl
@[simp] theorem complete_tlbHit_tlbHits (a : Addr) (f : Frame) (s : State) : (complete a .tlbHit f s).tlbHits = s.tlbHits + 1 := rfl
@[simp] theorem complete_tlbHit_tlbMisses (a : Addr) (f : Frame) (s : State) : (complete a .tlbHit f s).tlbMisses = s.tlbMisses := rfl
@[simp] theorem complete_tlbHit_pageFaults (a : Addr) (f : Frame) (s : State) : (complete a .tlbHit f s).pageFaults = s.pageFaults := rfl
@[simp] theorem complete_softMiss_tlbHits (a : Addr) (f : Frame) (s : State) : (complete a .softMiss f s).tlbHits = s.tlbHits := rfl
@[simp] theorem complete_softMiss_tlbMisses (a : Addr) (f : Frame) (s : State) : (complete a .softMiss f s).tlbMisses = s.tlbMisses + 1 := rfl
@[simp] theorem complete_softMiss_pageFaults (a : Addr) (f : Frame) (s : State) : (complete a .softMiss f s).pageFaults = s.pageFaults := rfl
@[simp] theorem complete_hardMiss_tlbHits (a : Addr) (f : Frame) (s : State) : (complete a .hardMiss f s).tlbHits = s.tlbHits := rfl
@[simp] theorem complete_hardMiss_tlbMisses (a : Addr) (f : Frame) (s : State) : (complete a .hardMiss f s).tlbMisses = s.tlbMisses + 1 := rfl
@[simp] theorem complete_hardMiss_pageFaults (a : Addr) (f : Frame) (s : State) : (complete a .hardMiss f s).pageFaults = s.pageFaults + 1 := rfl
theorem complete_sent (a : Addr) (o : Path) (f : Frame) (s : State) : (complete a o f s).sent =
    s.sent ++ [(Response.translated o f a ((frameContent s f).getD (offsetOf a).toNat 0) (frameContent s f)).words] := rfl

end Sys2Proof.Machine
end

