-- ==== Sys2Proof/Laws/Memory.lean ====
section
/-!
SUPPORT. The laws of the byte memories: what a read gives after a write, and that every operation keeps the canonical
form.
-/

namespace Sys2Proof.Machine

theorem Memory.read?_filter_of_keep (m : Memory) (q : Nat → Bool) (x : Nat) (h : q x = true) :
    Memory.read? (m.filter fun c => q c.1) x = m.read? x := by
  unfold Memory.read?
  induction m with
  | nil => rfl
  | cons c m ih =>
    obtain ⟨a, b⟩ := c
    by_cases hx : x = a
    · subst hx; simp [h]
    · by_cases hq : q a = true
      · simp [hq, List.lookup_cons, beq_false_of_ne hx, ih]
      · simp [hq, List.lookup_cons, beq_false_of_ne hx, ih]

theorem Memory.read?_filter_of_drop (m : Memory) (q : Nat → Bool) (x : Nat) (h : q x = false) :
    Memory.read? (m.filter fun c => q c.1) x = none := by
  unfold Memory.read?
  rw [List.lookup_eq_none_iff]
  intro c hc
  rw [List.mem_filter] at hc
  by_contra hx
  simp only [bne_iff_ne, ne_eq, not_not] at hx
  rw [← hx, h] at hc
  simp at hc

/-- Two memories one after the other: the first one answers if it can. -/
theorem Memory.read?_append (m n : Memory) (x : Nat) : Memory.read? (m ++ n) x = (m.read? x).or (n.read? x) := by
  simp [Memory.read?, List.lookup_append]

/-- The cells of a block hold exactly its bytes. -/
theorem read?_cellsAt (data : List Byte) (a x : Nat) :
    Memory.read? (cellsAt a data) x = if a ≤ x then data[x - a]? else none := by
  induction data generalizing a with
  | nil => simp [cellsAt, Memory.read?]
  | cons b rest ih =>
    by_cases hx : x = a
    · subst hx; simp [cellsAt, Memory.read?]
    · have := ih (a + 1)
      simp only [Memory.read?] at this ⊢
      simp only [cellsAt, List.lookup_cons, beq_false_of_ne hx, this]
      by_cases h : a ≤ x
      · have h1 : a + 1 ≤ x := by omega
        have h2 : x - a = (x - (a + 1)) + 1 := by omega
        simp [h, h1, h2]
      · have h1 : ¬ a + 1 ≤ x := by omega
        simp [h, h1]

/-- What a read gives after a write: the byte written inside the block, the old byte outside it. -/
theorem Memory.read?_write (m : Memory) (a : Nat) (data : List Byte) (x : Nat) :
    (m.write a data).read? x = if a ≤ x ∧ x < a + data.length then data[x - a]? else m.read? x := by
  unfold Memory.write
  rw [Memory.read?_append, Memory.read?_append, read?_cellsAt]
  by_cases h1 : x < a
  · rw [Memory.read?_filter_of_keep m (fun y => decide (y < a)) x (by simpa using h1),
      Memory.read?_filter_of_drop m (fun y => decide (a + data.length ≤ y)) x (by simp; omega)]
    simp [show ¬ a ≤ x by omega]
  · rw [Memory.read?_filter_of_drop m (fun y => decide (y < a)) x (by simpa using h1)]
    by_cases h2 : x < a + data.length
    · rw [Memory.read?_filter_of_drop m (fun y => decide (a + data.length ≤ y)) x (by simpa using h2)]
      simp [show a ≤ x by omega, h2]
    · rw [Memory.read?_filter_of_keep m (fun y => decide (a + data.length ≤ y)) x (by simpa using h2)]
      rw [List.getElem?_eq_none (by omega)]
      simp [h2]

theorem cellsAt_addresses (a : Nat) (data : List Byte) :
    (cellsAt a data).map Prod.fst = List.range' a data.length := by
  induction data generalizing a with
  | nil => rfl
  | cons b rest ih => simp [cellsAt, ih, List.range'_succ]

/-- A write lists addresses that were listed before, outside the block, and those of the block. -/
theorem Memory.mem_write (m : Memory) (a : Nat) (data : List Byte) (c : Host.Cell) (h : c ∈ m.write a data) :
    (c ∈ m ∧ (c.1 < a ∨ a + data.length ≤ c.1)) ∨ (a ≤ c.1 ∧ c.1 < a + data.length) := by
  simp only [Memory.write, List.mem_append, List.mem_filter, decide_eq_true_eq] at h
  rcases h with (h | h) | h
  · exact .inl ⟨h.1, .inl h.2⟩
  · have : c.1 ∈ (cellsAt a data).map Prod.fst := List.mem_map_of_mem h
    rw [cellsAt_addresses, List.mem_range'_1] at this
    exact .inr this
  · exact .inl ⟨h.1, .inr h.2⟩

/-- A write keeps the canonical form. -/
theorem Memory.write_wf (m : Memory) (a : Nat) (data : List Byte) (h : m.wf) : (m.write a data).wf := by
  have keep : ∀ q : Nat → Bool, ((m.filter fun c => q c.1).map Prod.fst).Pairwise (· < ·) := fun q =>
    List.Pairwise.sublist (List.Sublist.map Prod.fst List.filter_sublist) h
  unfold Memory.wf Memory.write
  rw [List.map_append, List.map_append, cellsAt_addresses, List.pairwise_append, List.pairwise_append]
  refine ⟨⟨keep fun y => decide (y < a), List.pairwise_lt_range', ?_⟩, keep fun y => decide (a + data.length ≤ y), ?_⟩
  · intro x hx y hy
    simp only [List.mem_map, List.mem_filter, decide_eq_true_eq] at hx
    rw [List.mem_range'_1] at hy
    obtain ⟨c, hc, rfl⟩ := hx
    omega
  · intro x hx y hy
    simp only [List.mem_append, List.mem_map, List.mem_filter, decide_eq_true_eq, List.mem_range'_1] at hx hy
    obtain ⟨d, hd, rfl⟩ := hy
    rcases hx with ⟨c, hc, rfl⟩ | hx <;> omega

/-- A memory made of cells is in canonical form. -/
theorem Memory.ofCells_wf (cells : List Host.Cell) : (Memory.ofCells cells).wf := by
  unfold Memory.ofCells
  suffices ∀ m : Memory, m.wf → (cells.foldl (fun m c => m.write c.1 [c.2]) m).wf from this [] (by simp [Memory.wf])
  induction cells with
  | nil => exact fun m h => h
  | cons c cells ih => exact fun m h => ih _ (Memory.write_wf m c.1 [c.2] h)

/-- What a memory made of cells reads: a later cell of the same address wins. -/
theorem Memory.read?_ofCells_append (cells : List Host.Cell) (c : Host.Cell) (x : Nat) :
    (Memory.ofCells (cells ++ [c])).read? x = if x = c.1 then some c.2 else (Memory.ofCells cells).read? x := by
  rw [Memory.ofCells, List.foldl_append, ← Memory.ofCells]
  simp only [List.foldl_cons, List.foldl_nil, Memory.read?_write, List.length_cons, List.length_nil]
  by_cases h : x = c.1
  · subst h; simp
  · rw [if_neg (by omega), if_neg h]

/-- BS of the run that starts is in canonical form if BS is. -/
theorem nextBs_wf {s : State} (h : s.bs.wf) : (nextBs s).wf := by
  unfold nextBs
  split
  · exact h
  · exact Memory.ofCells_wf _

@[simp] theorem length_frameContent (s : State) (f : Frame) : (frameContent s f).length = 256 := by simp [frameContent]

@[simp] theorem length_bsPage (s : State) (p : Page) : (bsPage s p).length = 256 := by simp [bsPage]

/-- One byte of the frame store after an install: the new byte in the frame, the old byte elsewhere (R204). -/
theorem fsByte_installPage (s : State) (f : Frame) (data : List Byte) (x : Nat) (h : data.length = 256) :
    fsByte (installPage f data s) x =
      if frameBase f ≤ x ∧ x < frameBase f + 256 then data.getD (x - frameBase f) 0 else fsByte s x := by
  simp only [fsByte, installPage, Memory.read?_write, h]
  by_cases hx : frameBase f ≤ x ∧ x < frameBase f + 256
  · rw [if_pos hx, if_pos hx, List.getElem?_eq_getElem (by omega)]
    simp [List.getElem?_eq_getElem (show x - frameBase f < data.length by omega)]
  · rw [if_neg hx, if_neg hx]

/-- The content of a frame depends on FS and the draw in force only. -/
theorem frameContent_congr (s t : State) (f : Frame) (h1 : t.fs = s.fs) (h2 : t.fsDraw = s.fsDraw) :
    frameContent t f = frameContent s f := by simp [frameContent, fsByte, h1, h2]

/-- The content of a frame right after its page was installed is the page (R206). -/
theorem frameContent_of_write (s t : State) (f : Frame) (data : List Byte) (h : data.length = 256)
    (hfs : t.fs = s.fs.write (frameBase f) data) : frameContent t f = data := by
  apply List.ext_getElem (by simp [h])
  intro k hk _
  have hk' : k < 256 := by simpa using hk
  simp only [frameContent, List.getElem_map, List.getElem_range, fsByte, hfs, Memory.read?_write, h]
  simp [hk', List.getElem?_eq_getElem (show k < data.length by omega)]

end Sys2Proof.Machine
end

