-- ==== Sys2Proof/Laws/Ops.lean ====
section
/-!
SUPPORT. What each shared operation can do, said once: the TLB sequence, the page table with its owners, the lookahead,
and the accessors under every update.
-/

namespace Sys2Proof.Machine

/-! ### Accessors under updates of other fields -/

theorem ptLookup_congr {s t : State} (h : t.pt = s.pt) (p : Page) : ptLookup t p = ptLookup s p := by
  simp [ptLookup, h]

theorem ownerOf_congr {s t : State} (h : t.owner = s.owner) (f : Frame) : ownerOf t f = ownerOf s f := by
  simp [ownerOf, h]

theorem tlbFind_congr {s t : State} (h : t.tlbq = s.tlbq) (p : Page) : tlbFind t p = tlbFind s p := by
  simp [tlbFind, h]

theorem bsByte_congr {s t : State} (h : t.bs = s.bs) (a : Nat) : bsByte t a = bsByte s a := by simp [bsByte, h]

theorem bsPage_congr {s t : State} (h : t.bs = s.bs) (p : Page) : bsPage t p = bsPage s p := by
  simp [bsPage, bsByte, h]

theorem fsByte_congr {s t : State} (h1 : t.fs = s.fs) (h2 : t.fsDraw = s.fsDraw) (a : Nat) :
    fsByte t a = fsByte s a := by simp [fsByte, h1, h2]

theorem nextBs_congr {s t : State} (h1 : t.bs = s.bs) (h2 : t.nextFill = s.nextFill) : nextBs t = nextBs s := by
  simp [nextBs, h1, h2]

theorem nextTrace_congr {s t : State} (h1 : t.trace = s.trace) (h2 : t.nextFill = s.nextFill) :
    nextTrace t = nextTrace s := by simp [nextTrace, h1, h2]

theorem isFull_congr {s t : State} (h1 : t.filled = s.filled) (h2 : t.numFrames = s.numFrames) :
    isFull t = isFull s := by simp [isFull, h1, h2]

theorem isFull_iff (s : State) : isFull s = true ↔ s.filled = s.numFrames := by simp [isFull]

theorem ptLookup_setPt (s : State) (p q : Page) (e : Option Frame) :
    ptLookup (setPt p e s) q = if q = p then e else ptLookup s q := by
  simp only [ptLookup, setPt_pt, Vector.getElem_set, BitVec.toNat_inj, eq_comm]

@[simp] theorem ptLookup_setOwner (s : State) (f : Frame) (p : Page) (e : Option Page) :
    ptLookup (setOwner f e s) p = ptLookup s p := rfl

theorem ownerOf_setOwner (s : State) (f g : Frame) (e : Option Page) :
    ownerOf (setOwner f e s) g = if g = f then e else ownerOf s g := by
  simp only [ownerOf, setOwner_owner, Vector.getElem_set, BitVec.toNat_inj, eq_comm]

@[simp] theorem ownerOf_setPt (s : State) (p : Page) (f : Frame) (e : Option Frame) :
    ownerOf (setPt p e s) f = ownerOf s f := rfl

@[simp] theorem ptLookup_startRun (s : State) (n : BitVec 9) (c : Policy) (p : Page) :
    ptLookup (startRun n c s) p = none := by simp [ptLookup]

@[simp] theorem ownerOf_startRun (s : State) (n : BitVec 9) (c : Policy) (f : Frame) :
    ownerOf (startRun n c s) f = none := by simp [ownerOf]

/-! ### The TLB sequence -/

theorem mem_dropPage {q : List (Page × Frame)} {p : Page} {e : Page × Frame} :
    e ∈ dropPage q p ↔ e ∈ q ∧ e.1 ≠ p := by simp [dropPage]

theorem dropPage_length_le (q : List (Page × Frame)) (p : Page) : (dropPage q p).length ≤ q.length :=
  List.length_filter_le _ _

/-- A pair that is there goes, so the sequence gets shorter. -/
theorem dropPage_length_lt {q : List (Page × Frame)} {p : Page} {f : Frame} (h : (p, f) ∈ q) :
    (dropPage q p).length < q.length :=
  List.length_filter_lt_length_iff_exists.mpr ⟨(p, f), h, by simp⟩

theorem dropPage_eq_self {q : List (Page × Frame)} {p : Page} (h : q.lookup p = none) : dropPage q p = q := by
  rw [List.lookup_eq_none_iff] at h
  exact List.filter_eq_self.mpr fun e he => by
    have := h e he
    simp only [bne_iff_ne, ne_eq] at this ⊢
    exact fun hx => this hx.symm

theorem lookup_dropPage (q : List (Page × Frame)) (p r : Page) :
    (dropPage q p).lookup r = if r = p then none else q.lookup r := by
  induction q with
  | nil => simp [dropPage]
  | cons e q ih =>
    obtain ⟨a, g⟩ := e
    simp only [dropPage] at ih ⊢
    by_cases ha : a = p
    · subst ha
      by_cases hr : r = a
      · simp [hr] at ih ⊢; exact ih
      · simp [hr, List.lookup_cons, beq_false_of_ne hr] at ih ⊢; exact ih
    · by_cases hr : r = a
      · subst hr; simp [ha]
      · simp [ha, List.lookup_cons, beq_false_of_ne hr, ih]

theorem lookup_some_mem {q : List (Page × Frame)} {p : Page} {f : Frame} (h : q.lookup p = some f) : (p, f) ∈ q := by
  induction q with
  | nil => simp at h
  | cons e q ih =>
    obtain ⟨r, g⟩ := e
    by_cases hr : p = r
    · subst hr; simp at h; simp [h]
    · simp only [List.lookup_cons, beq_false_of_ne hr] at h
      exact List.mem_cons_of_mem _ (ih h)

/-- With one pair a page, membership is what the lookup finds. -/
theorem lookup_eq_some_iff {q : List (Page × Frame)} (hq : (q.map Prod.fst).Nodup) {p : Page} {f : Frame} :
    q.lookup p = some f ↔ (p, f) ∈ q := by
  refine ⟨lookup_some_mem, fun h => ?_⟩
  induction q with
  | nil => simp at h
  | cons e q ih =>
    obtain ⟨r, g⟩ := e
    rw [List.map_cons, List.nodup_cons] at hq
    rcases List.mem_cons.mp h with h1 | h1
    · cases h1; simp
    · have hr : p ≠ r := fun hr => hq.1 (List.mem_map.mpr ⟨(p, f), h1, hr⟩)
      simp only [List.lookup_cons, beq_false_of_ne hr]
      exact ih hq.2 h1

/-- The pair put last is what the lookup of its page finds, if no earlier pair is of that page (R130, R131). -/
theorem lookup_append_last (q : List (Page × Frame)) (p : Page) (f : Frame) (h : q.lookup p = none) :
    (q ++ [(p, f)]).lookup p = some f := by simp [List.lookup_append, h]

theorem lookup_append_other (q : List (Page × Frame)) (p r : Page) (f : Frame) (h : r ≠ p) :
    (q ++ [(p, f)]).lookup r = q.lookup r := by
  simp [List.lookup_append, List.lookup_cons, beq_false_of_ne h]

theorem lookup_tail_none {q : List (Page × Frame)} {p : Page} (h : q.lookup p = none) : q.tail.lookup p = none := by
  rw [List.lookup_eq_none_iff] at h ⊢
  exact fun e he => h e (List.mem_of_mem_tail he)

/-- TLB_insert of a page the TLB does not hold (R131): the first pair goes if there are 16, the new pair is last. -/
theorem insertPair_new {q : List (Page × Frame)} {p : Page} (f : Frame) (h : q.lookup p = none) :
    insertPair q p f = (if q.length = 16 then q.tail else q) ++ [(p, f)] := by
  simp only [insertPair, h, Config.tlbEntries]
  by_cases hl : q.length = 16 <;> simp [hl]

/-- Whatever TLB_insert does, the inserted page is then found with its frame. -/
theorem lookup_insertPair (q : List (Page × Frame)) (p : Page) (f : Frame) :
    (insertPair q p f).lookup p = some f := by
  by_cases h : q.lookup p = none
  · rw [insertPair_new f h]
    apply lookup_append_last
    split
    · exact lookup_tail_none h
    · exact h
  · have h' : (q.lookup p).isSome = true := by simpa [Option.isSome_iff_ne_none] using h
    simp only [insertPair, h', if_true]
    exact lookup_append_last _ _ _ (by simp [lookup_dropPage])

theorem nodup_dropPage {q : List (Page × Frame)} (p : Page) (h : (q.map Prod.fst).Nodup) :
    ((dropPage q p).map Prod.fst).Nodup :=
  List.Nodup.sublist (List.Sublist.map Prod.fst List.filter_sublist) h

theorem nodup_append_last {q : List (Page × Frame)} {p : Page} (f : Frame) (h : (q.map Prod.fst).Nodup)
    (hp : q.lookup p = none) : ((q ++ [(p, f)]).map Prod.fst).Nodup := by
  rw [List.map_append, List.nodup_append]
  refine ⟨h, by simp, ?_⟩
  intro a ha b hb hab
  simp only [List.map_cons, List.map_nil, List.mem_singleton] at hb
  obtain ⟨e, he, rfl⟩ := List.mem_map.mp ha
  rw [List.lookup_eq_none_iff] at hp
  have := hp e he
  simp [← hb, hab] at this

/-- A promotion keeps one pair a page and does not lengthen the sequence (R130). -/
theorem promote_shape {q : List (Page × Frame)} {p : Page} {f : Frame} (h : (q.map Prod.fst).Nodup)
    (hf : q.lookup p = some f) :
    ((dropPage q p ++ [(p, f)]).map Prod.fst).Nodup ∧ (dropPage q p ++ [(p, f)]).length ≤ q.length := by
  refine ⟨nodup_append_last f (nodup_dropPage p h) (by simp [lookup_dropPage]), ?_⟩
  have := dropPage_length_lt (lookup_some_mem hf)
  simp only [List.length_append, List.length_cons, List.length_nil]
  omega

/-- TLB_insert keeps R41: one pair a page, at most 16 pairs. -/
theorem insertPair_shape {q : List (Page × Frame)} (p : Page) (f : Frame) (h : (q.map Prod.fst).Nodup)
    (hl : q.length ≤ 16) :
    ((insertPair q p f).map Prod.fst).Nodup ∧ (insertPair q p f).length ≤ 16 := by
  rcases hf : q.lookup p with _ | g
  · rw [insertPair_new f hf]
    split
    · next h16 =>
      refine ⟨nodup_append_last f (List.Nodup.sublist (List.Sublist.map _ (List.tail_sublist q)) h)
        (lookup_tail_none hf), ?_⟩
      simp [h16]
    · refine ⟨nodup_append_last f h hf, ?_⟩
      simp only [List.length_append, List.length_cons, List.length_nil]
      omega
  · have hs := promote_shape (f := g) h hf
    simp only [insertPair, hf, Option.isSome_some, if_true]
    refine ⟨nodup_append_last f (nodup_dropPage p h) (by simp [lookup_dropPage]), ?_⟩
    have := dropPage_length_lt (lookup_some_mem hf)
    simp only [List.length_append, List.length_cons, List.length_nil]
    omega

/-! ### TLB_lookup, PT_unmap, PT_map, the eviction -/

/-- TLB_lookup in one of its two cases (R130). -/
theorem tlbLookup_cases (p : Page) (s : State) :
    (∃ f, tlbFind s p = some f ∧ tlbLookup p s = (some f, tlbPromote p f s)) ∨
      (tlbFind s p = none ∧ tlbLookup p s = (none, s)) := by
  rcases h : tlbFind s p with _ | f
  · exact .inr ⟨rfl, by simp [tlbLookup, h]⟩
  · exact .inl ⟨f, rfl, by simp [tlbLookup, h]⟩

theorem ptLookup_ptUnmap (s : State) (p q : Page) :
    ptLookup (ptUnmap p s) q = if q = p then none else ptLookup s q := by
  unfold ptUnmap
  split <;> simp [ptLookup_setPt]

theorem ownerOf_ptUnmap (s : State) (p : Page) (f : Frame) :
    ownerOf (ptUnmap p s) f = if ptLookup s p = some f then none else ownerOf s f := by
  unfold ptUnmap
  split
  · next g h => simp only [ownerOf_setPt, ownerOf_setOwner, h, Option.some.injEq, eq_comm]
  · next h => simp [h]

/-- PT_map into a frame that is EMPTY or the page's own (R151): nothing is cleared first. -/
theorem ptMap_of_free {s : State} {p : Page} {f : Frame} (h : ownerOf s f = none ∨ ownerOf s f = some p) :
    ptMap p f s = setOwner f (some p) (setPt p (some f) s) := by
  unfold ptMap
  rcases h with h | h <;> simp [h]

/-- After PT_map the page maps to the frame and the frame's owner is the page (R151). -/
theorem ptMap_maps (s : State) (p : Page) (f : Frame) :
    ptLookup (ptMap p f s) p = some f ∧ ownerOf (ptMap p f s) f = some p := by
  unfold ptMap
  split <;> (try split) <;> simp [ptLookup_setPt, ownerOf_setOwner]

/-- The eviction in one of its two cases (R204). -/
theorem evict_cases (f : Frame) (s : State) :
    (∃ q, ownerOf s f = some q ∧ evict f s = tlbInvalidate q (ptUnmap q s)) ∨
      (ownerOf s f = none ∧ evict f s = countFill s) := by
  unfold evict
  rcases ownerOf s f with _ | q
  · exact .inr ⟨rfl, rfl⟩
  · exact .inl ⟨q, rfl, rfl⟩

/-- The page a hard miss brings in is mapped to the victim frame, in the page table and in the TLB (R204). -/
theorem fillFrame_maps (s : State) (p : Page) (f : Frame) (data : List Byte) :
    ptLookup (fillFrame p f data s) p = some f ∧ tlbFind (fillFrame p f data s) p = some f := by
  constructor
  · rw [fillFrame, ptLookup_congr (advanceCursor_pt _), ptLookup_congr (tlbInsert_pt _ _ _)]
    exact (ptMap_maps _ p f).1
  · simp [fillFrame, tlbFind, lookup_insertPair]

/-! ### The fill of a frame whose owner agrees with the page table

`h` below is R45 for the frame that is filled: the page it is said to hold maps to it. -/

/-- After the eviction of such a frame it is EMPTY. -/
theorem ownerOf_evict {s : State} {f : Frame} (h : ∀ q, ownerOf s f = some q → ptLookup s q = some f) (g : Frame) :
    ownerOf (evict f s) g = if g = f then none else ownerOf s g := by
  rcases evict_cases f s with ⟨q, hq, he⟩ | ⟨hq, he⟩
  · rw [he, ownerOf_congr (tlbInvalidate_owner _ _), ownerOf_ptUnmap, h q hq]
    simp only [Option.some.injEq, eq_comm]
  · rw [he, ownerOf_congr (countFill_owner _)]
    split
    · next hg => rw [hg, hq]
    · rfl

theorem ptLookup_evict (s : State) (f : Frame) (x : Page) :
    ptLookup (evict f s) x = if ownerOf s f = some x then none else ptLookup s x := by
  rcases evict_cases f s with ⟨q, hq, he⟩ | ⟨hq, he⟩
  · rw [he, ptLookup_congr (tlbInvalidate_pt _ _), ptLookup_ptUnmap, hq]
    simp only [Option.some.injEq, eq_comm]
  · rw [he, ptLookup_congr (countFill_pt _), hq]
    simp

theorem tlbq_evict (s : State) (f : Frame) :
    (evict f s).tlbq = match ownerOf s f with | some q => dropPage s.tlbq q | none => s.tlbq := by
  rcases evict_cases f s with ⟨q, hq, he⟩ | ⟨hq, he⟩ <;> rw [he, hq] <;> simp

theorem filled_evict (s : State) (f : Frame) :
    (evict f s).filled = match ownerOf s f with | some _ => s.filled | none => s.filled + 1 := by
  rcases evict_cases f s with ⟨q, hq, he⟩ | ⟨hq, he⟩ <;> rw [he, hq] <;> simp

/-- The fill is then: evict, install, write PT and OWNER, insert into the TLB, advance the cursor. -/
theorem fillFrame_eq {s : State} {f : Frame} (p : Page) (data : List Byte)
    (h : ∀ q, ownerOf s f = some q → ptLookup s q = some f) :
    fillFrame p f data s = advanceCursor (tlbInsert p f (setOwner f (some p) (setPt p (some f)
      (installPage f data (evict f s))))) := by
  rw [fillFrame, ptMap_of_free]
  left
  rw [ownerOf_congr (installPage_owner _ _ _), ownerOf_evict h]
  simp

theorem ptLookup_fillFrame {s : State} {f : Frame} (p : Page) (data : List Byte)
    (h : ∀ q, ownerOf s f = some q → ptLookup s q = some f) (x : Page) :
    ptLookup (fillFrame p f data s) x =
      if x = p then some f else if ownerOf s f = some x then none else ptLookup s x := by
  rw [fillFrame_eq p data h, ptLookup_congr (advanceCursor_pt _), ptLookup_congr (tlbInsert_pt _ _ _),
    ptLookup_setOwner, ptLookup_setPt, ptLookup_congr (installPage_pt _ _ _), ptLookup_evict]

theorem ownerOf_fillFrame {s : State} {f : Frame} (p : Page) (data : List Byte)
    (h : ∀ q, ownerOf s f = some q → ptLookup s q = some f) (g : Frame) :
    ownerOf (fillFrame p f data s) g = if g = f then some p else ownerOf s g := by
  rw [fillFrame_eq p data h, ownerOf_congr (advanceCursor_owner _), ownerOf_congr (tlbInsert_owner _ _ _),
    ownerOf_setOwner, ownerOf_setPt, ownerOf_congr (installPage_owner _ _ _), ownerOf_evict h]
  split <;> rfl

theorem tlbq_fillFrame {s : State} {f : Frame} (p : Page) (data : List Byte)
    (h : ∀ q, ownerOf s f = some q → ptLookup s q = some f) :
    (fillFrame p f data s).tlbq =
      insertPair (match ownerOf s f with | some q => dropPage s.tlbq q | none => s.tlbq) p f := by
  rw [fillFrame_eq p data h]
  simp [tlbq_evict]

theorem filled_fillFrame {s : State} {f : Frame} (p : Page) (data : List Byte)
    (h : ∀ q, ownerOf s f = some q → ptLookup s q = some f) :
    (fillFrame p f data s).filled = match ownerOf s f with | some _ => s.filled | none => s.filled + 1 := by
  rw [fillFrame_eq p data h]
  simp [filled_evict]

end Sys2Proof.Machine
end

