-- ==== Sys2Proof/Laws/Step.lean ====
section
/-!
SUPPORT. What a step can do, said once: the cases of TRANSLATE, of INIT, of a command and of a move of the host. Every
invariant is proved from these, without unfolding `step`.
-/

namespace Sys2Proof.Machine

/-- TRANSLATE that goes on (R200): refused at admission, or one of its three paths. -/
theorem execTranslate_cases {a : Addr} {s t : State} (h : execTranslate a s = .next t) :
    (∃ c, admission a s = some c ∧ t = raiseError c false s) ∨
    (admission a s = none ∧ ∃ f, tlbFind s (pageOf a) = some f ∧
      t = complete a .tlbHit f (tlbPromote (pageOf a) f s)) ∨
    (admission a s = none ∧ tlbFind s (pageOf a) = none ∧ ∃ f, ptLookup s (pageOf a) = some f ∧
      t = complete a .softMiss f (tlbInsert (pageOf a) f s)) ∨
    (admission a s = none ∧ tlbFind s (pageOf a) = none ∧ ptLookup s (pageOf a) = none ∧ bsSilent s = false ∧
      t = hardMiss a s) := by
  unfold execTranslate at h
  split at h
  · next c hc => exact .inl ⟨c, hc, by cases h; rfl⟩
  · next hc =>
    right
    unfold resolve at h
    rcases tlbLookup_cases (pageOf a) s with ⟨f, hf, hl⟩ | ⟨hf, hl⟩
    · rw [hl] at h
      exact .inl ⟨hc, f, hf, by cases h; rfl⟩
    · rw [hl] at h
      right
      rcases hp : ptLookup s (pageOf a) with _ | f
      · simp only [hp] at h
        split at h
        · cases h
        · next hs => exact .inr ⟨hc, hf, rfl, by simpa using hs, by cases h; rfl⟩
      · simp only [hp] at h
        exact .inl ⟨hc, hf, f, rfl, by cases h; rfl⟩

/-- A hard miss whose port answers: BS_ERROR, or the page in the victim frame (R204). -/
theorem hardMiss_cases (a : Addr) (s : State) :
    (bsReadFails s = true ∧ hardMiss a s = raiseError .bsError true (bsReadDone s)) ∨
    (bsReadFails s = false ∧ hardMiss a s = complete a .hardMiss (selectVictim s s.total)
      (fillFrame (pageOf a) (selectVictim s s.total) (bsPage s (pageOf a)) (bsReadDone s))) := by
  unfold hardMiss
  rcases bsReadFails s <;> simp

/-- INIT always goes on (R230): refused, or a new run. -/
theorem execInit_cases (n : BitVec 9) (b : BitVec 2) (s : State) :
    ((n.toNat = 0 ∨ 256 < n.toNat) ∧ execInit n b s = .next (raiseError .badNumFrames false s)) ∨
    (¬ (n.toNat = 0 ∨ 256 < n.toNat) ∧ policyOfBits b = none ∧
      execInit n b s = .next (raiseError .badPolicy false s)) ∨
    (∃ p, ¬ (n.toNat = 0 ∨ 256 < n.toNat) ∧ policyOfBits b = some p ∧
      execInit n b s = .next (respond (.initDone p n) (startRun n p s))) := by
  unfold execInit
  by_cases hn : n.toNat = 0 ∨ 256 < n.toNat
  · exact .inl ⟨hn, by rw [if_pos hn]⟩
  · right
    rw [if_neg hn]
    rcases hp : policyOfBits b with _ | p
    · exact .inl ⟨hn, rfl, rfl⟩
    · exact .inr ⟨p, hn, rfl, rfl⟩

/-- A step that goes on: nothing to do, a decoded command run, a word refused, the reset input, or the external memories
provided for the next run. -/
theorem step_cases {s t : State} (h : step s = .next t) :
    (s.host = [] ∧ t = s) ∨
    (∃ w rest i, s.host = .command w :: rest ∧ decode w = .ok i ∧ exec i (takeMove rest s) = .next t) ∨
    (∃ w rest c, s.host = .command w :: rest ∧
      ((decode w = .illegalOpcode ∧ c = .illegalOpcode) ∨ (decode w = .reservedBits ∧ c = .reservedBits)) ∧
      t = raiseError c false (takeMove rest s)) ∨
    (∃ rest, (s.host = .reset :: rest ∨ ∃ w, s.host = .resetDuring w :: rest) ∧
      t = startRun 256 .fifo (takeMove rest s)) ∨
    (∃ bytes trace rest, s.host = .load bytes trace :: rest ∧ t = loadMemories bytes trace (takeMove rest s)) := by
  unfold step runMove at h
  split at h
  · next hh => exact .inl ⟨hh, by cases h; rfl⟩
  · next w rest hh =>
    right
    unfold runWord at h
    split at h
    · next i hi => exact .inl ⟨w, rest, i, hh, hi, h⟩
    · next hi => exact .inr (.inl ⟨w, rest, _, hh, .inl ⟨hi, rfl⟩, by cases h; rfl⟩)
    · next hi => exact .inr (.inl ⟨w, rest, _, hh, .inr ⟨hi, rfl⟩, by cases h; rfl⟩)
  · next rest hh => exact .inr (.inr (.inr (.inl ⟨rest, .inl hh, by cases h; rfl⟩)))
  · next w rest hh => exact .inr (.inr (.inr (.inl ⟨rest, .inr ⟨w, hh⟩, by cases h; rfl⟩)))
  · next bytes trace rest hh =>
    exact .inr (.inr (.inr (.inr ⟨bytes, trace, rest, hh, by cases h; rfl⟩)))

/-- The step on a command word. -/
theorem step_command {s : State} {w : Word} {rest : List HostMove} (h : s.host = .command w :: rest) :
    step s = runWord w (takeMove rest s) := by simp [step, runMove, h]

end Sys2Proof.Machine
end

