-- ==== Sys2Proof/Laws/Invariant.lean ====
section
/-!
SUPPORT. What keeps a state sound, one lemma per shared operation: an error, the start of a run, each path of TRANSLATE.
-/

namespace Sys2Proof.Machine

/-! ### Admission and errors -/

/-- The admission lets a TRANSLATE through exactly when none of its checks refuses it (R200, R208). -/
theorem admission_eq_none {s : State} {a : Addr} : admission a s = none ↔ Admitted s a := by
  unfold admission Admitted traceCheck
  by_cases h : s.halted = true <;> by_cases h1 : s.total = 2 ^ s.cntWidth - 1 <;> simp [h, h1]
  rcases s.policy <;> simp
  rcases s.trace[s.total]? <;> simp

/-- The admission refuses with an error code only (R251). -/
theorem admission_ne_none_code {s : State} {a : Addr} : admission a s ≠ some .none := by
  unfold admission traceCheck
  repeat' split
  all_goals simp

/-- A command error as R262 words it. -/
theorem raiseError_eq_withError {c : ErrCode} {w : Word} (s : State) (h : (Response.error c).words = [w]) :
    raiseError c false s = withError c w s := by
  cases s; simp [raiseError, withError, respond, haltIf, latchError, h]

/-- An error entry keeps the status registers consistent (R24). -/
theorem statusOk_raiseError {c : ErrCode} (hc : c ≠ .none) (fatal : Bool) {s : State} (h : StatusOk s) :
    StatusOk (raiseError c fatal s) := by
  constructor
  · simp only [raiseError_err, raiseError_errCode, true_iff]
    split
    · next he => exact h.code_iff.mp he
    · exact hc
  · simp

/-! ### The invariant under changes it does not look at -/

/-- A sound state stays sound if only ERR, ERRCODE, HALTED and the outside world but BS change, and the status registers
agree. -/
theorem inv_of_status {s t : State} (h : Inv s) (hs : StatusOk t)
    (e : { t with
      err := s.err, errCode := s.errCode, halted := s.halted, host := s.host, sent := s.sent, policy := s.policy
      bsAnswers := s.bsAnswers, bsReads := s.bsReads, trace := s.trace, nextFill := s.nextFill
      fsDraw := s.fsDraw } = s) : Inv t := by
  cases t; cases s
  simp only [State.mk.injEq, true_and, and_true] at e
  obtain ⟨rfl, rfl, rfl, rfl, rfl, rfl, rfl, rfl, rfl, rfl, rfl, rfl, rfl, rfl⟩ := e
  obtain ⟨⟨a1, a2, a3, a4, a5, a6, a7⟩, _, ⟨b1, b2, b3⟩, ⟨c1, c2, c3⟩, ⟨d1, d2⟩, ⟨e1, e2⟩, ⟨f1, f2, f3⟩, g,
    ⟨h1, h2, h3⟩, i, ⟨j1, j2⟩⟩ := h
  exact ⟨⟨a1, a2, a3, a4, a5, a6, a7⟩, hs, ⟨b1, b2, b3⟩, ⟨c1, c2, c3⟩, ⟨d1, d2⟩, ⟨e1, e2⟩, ⟨f1, f2, f3⟩, g,
    ⟨h1, h2, h3⟩, i, ⟨j1, j2⟩⟩

/-- The start of a run in a legal configuration is a sound state (R50). -/
theorem inv_startRun {n : BitVec 9} (p : Policy) {s : State} (h1 : 1 ≤ n.toNat) (h2 : n.toNat ≤ 256)
    (hw1 : 1 ≤ s.cntWidth) (hw2 : s.cntWidth ≤ 32) (hb : s.bs.wf) : Inv (startRun n p s) := by
  have hp : 0 < 2 ^ s.cntWidth := Nat.two_pow_pos _
  refine ⟨⟨h1, h2, by show 0 < n.toNat; omega, by simp, hw1, hw2, hp⟩, ⟨by simp, by simp⟩,
    ⟨by simp, by simp, by simp⟩, ⟨by simp, by simp, by simp⟩, ⟨by simp, by simp⟩, ⟨by simp, by simp⟩,
    ⟨rfl, by simp, by simp⟩, ?_, ⟨by simp [Memory.wf], nextBs_wf hb, by simp⟩, ?_, ⟨by simp, by simp⟩⟩
  · intro _ p
    simp [tlbFind]
  · intro p f h
    simp at h

/-! ### LRUQ, the TLB's frames, the OPT scan -/

/-- report_access keeps one place a frame (R174, R47). -/
theorem nodup_report {q : List Frame} (f : Frame) (h : q.Nodup) : ((q.filter fun x => x != f) ++ [f]).Nodup := by
  rw [List.nodup_append]
  refine ⟨h.filter _, by simp, ?_⟩
  intro a ha b hb
  simp only [List.mem_filter, bne_iff_ne, List.mem_singleton] at ha hb
  subst hb
  exact ha.2

theorem mem_report {q : List Frame} {f g : Frame} : g ∈ ((q.filter fun x => x != f) ++ [f]) ↔ g ∈ q ∨ g = f := by
  by_cases h : g = f <;> simp [h]

/-- A list that maps without repeats to frames below `n` has at most `n` entries. -/
theorem length_le_of_frames {α : Type} (l : List α) (g : α → Frame) (n : Nat) (h : (l.map g).Nodup)
    (hb : ∀ x ∈ l, (g x).toNat < n) : l.length ≤ n := by
  have h1 : ((l.map g).map BitVec.toNat).Nodup := h.map fun a b => BitVec.eq_of_toNat_eq
  have h2 : ((l.map g).map BitVec.toNat) ⊆ List.range n := by
    intro x hx
    simp only [List.map_map, List.mem_map, Function.comp_apply] at hx
    obtain ⟨y, hy, rfl⟩ := hx
    simpa using hb y hy
  simpa using (List.subperm_of_subset h1 h2).length_le

/-- The frames the TLB holds are all different (R41, R42, R43). -/
theorem tlb_frames_nodup {s : State} (T : TlbOk s) (P : PageTableOk s) : (s.tlbq.map Prod.snd).Nodup := by
  have h1 := T.pages_nodup
  have h2 := T.agrees
  generalize s.tlbq = q at h1 h2
  induction q with
  | nil => simp
  | cons e q ih =>
    rw [List.map_cons, List.nodup_cons] at h1 ⊢
    refine ⟨?_, ih h1.2 fun e he => h2 e (List.mem_cons_of_mem _ he)⟩
    intro hm
    obtain ⟨e', he', heq⟩ := List.mem_map.mp hm
    apply h1.1
    have a2 := h2 e' (by simp [he'])
    rw [heq] at a2
    rw [P.exclusive _ _ _ (h2 e (by simp)) a2]
    exact List.mem_map_of_mem he'

/-- The OPT scan over frames below a bound answers a frame below it (R175). -/
theorem foldl_fartherFrame_lt (s : State) (pos : Nat) (l : List Nat) (b n : Nat) (hb : b < n) (hl : ∀ x ∈ l, x < n) :
    l.foldl (fartherFrame s pos) b < n := by
  induction l generalizing b with
  | nil => exact hb
  | cons x l ih =>
    apply ih _ _ fun y hy => hl y (by simp [hy])
    unfold fartherFrame
    split
    · exact hl x (by simp)
    · exact hb

/-! ### The paths of TRANSLATE -/

/-- A TLB hit keeps a sound state sound (R202). -/
theorem inv_tlbHit {s : State} {a : Addr} {f : Frame} (h : Inv s) (ha : Admitted s a)
    (hf : tlbFind s (pageOf a) = some f) :
    Inv (complete a .tlbHit f (tlbPromote (pageOf a) f s)) := by
  obtain ⟨R, S, T, P, F, L, C, G, M, X, RR⟩ := h
  have hpt : ptLookup s (pageOf a) = some f := T.agrees _ (lookup_some_mem hf)
  have hown : ownerOf s f = some (pageOf a) := (P.inverse _ _).mpr hpt
  have sh := promote_shape T.pages_nodup hf
  refine ⟨⟨R.frames_pos, R.frames_le, R.cursor_lt, R.filled_le, R.width_pos, R.width_le, ?_⟩,
    ⟨S.code_iff, S.halted_err⟩, ⟨?_, sh.1, ?_⟩, ⟨P.exclusive, P.in_range, P.inverse⟩, ⟨F.occupied_iff, F.cursor_eq⟩,
    ⟨?_, ?_⟩, ⟨?_, C.faults_le, C.filled_le⟩, ?_, ⟨M.fs_wf, M.bs_wf, M.fs_in_range⟩, X, ⟨RR.cursor_eq, RR.filled_eq⟩⟩
  · have := R.total_fits; have := ha.2.1; show s.total + 1 < 2 ^ s.cntWidth; omega
  · exact le_trans sh.2 T.length_le
  · intro e he
    have he : e ∈ dropPage s.tlbq (pageOf a) ++ [(pageOf a, f)] := he
    rw [List.mem_append, mem_dropPage, List.mem_singleton] at he
    rcases he with ⟨he, _⟩ | rfl
    · exact T.agrees e he
    · exact hpt
  · exact nodup_report _ L.nodup
  · intro g
    show g ∈ ((s.lruq.filter fun x => x != f) ++ [f]) ↔ (ownerOf s g).isSome = true
    rw [mem_report, L.mem_iff]
    constructor
    · rintro (h | rfl)
      · exact h
      · simp [hown]
    · exact fun h => .inl h
  · show s.total + 1 = (s.tlbHits + 1) + s.tlbMisses; have := C.total_eq; omega
  · intro hn p
    show ((dropPage s.tlbq (pageOf a) ++ [(pageOf a, f)]).lookup p).isSome = (ptLookup s p).isSome
    by_cases hp : p = pageOf a
    · subst hp; rw [lookup_append_last _ _ _ (by simp [lookup_dropPage]), hpt]
    · rw [lookup_append_other _ _ _ _ hp, lookup_dropPage, if_neg hp]; exact G hn p

/-- A soft miss keeps a sound state sound (R203). -/
theorem inv_softMiss {s : State} {a : Addr} {f : Frame} (h : Inv s) (ha : Admitted s a)
    (hf : tlbFind s (pageOf a) = none) (hpt : ptLookup s (pageOf a) = some f) :
    Inv (complete a .softMiss f (tlbInsert (pageOf a) f s)) := by
  obtain ⟨R, S, T, P, F, L, C, G, M, X, RR⟩ := h
  have hown : ownerOf s f = some (pageOf a) := (P.inverse _ _).mpr hpt
  have sh := insertPair_shape (pageOf a) f T.pages_nodup T.length_le
  have hins : insertPair s.tlbq (pageOf a) f = (if s.tlbq.length = 16 then s.tlbq.tail else s.tlbq) ++ [(pageOf a, f)] :=
    insertPair_new f hf
  have hu : tlbInsert (pageOf a) f s = { s with tlbq := insertPair s.tlbq (pageOf a) f } := rfl
  rw [hu]
  generalize insertPair s.tlbq (pageOf a) f = q at *
  have hT : TlbOk (complete a .softMiss f { s with tlbq := q }) := by
    refine ⟨sh.2, sh.1, ?_⟩
    intro e he
    have he : e ∈ q := he
    rw [hins, List.mem_append, List.mem_singleton] at he
    rcases he with he | rfl
    · refine T.agrees e ?_
      split at he
      · exact List.mem_of_mem_tail he
      · exact he
    · exact hpt
  have hL : LruOk (complete a .softMiss f { s with tlbq := q }) := by
    refine ⟨nodup_report _ L.nodup, ?_⟩
    intro g
    show g ∈ ((s.lruq.filter fun x => x != f) ++ [f]) ↔ (ownerOf s g).isSome = true
    rw [mem_report, L.mem_iff]
    constructor
    · rintro (h | rfl)
      · exact h
      · simp [hown]
    · exact fun h => .inl h
  have hR : RangesOk (complete a .softMiss f { s with tlbq := q }) := by
    refine ⟨R.frames_pos, R.frames_le, R.cursor_lt, R.filled_le, R.width_pos, R.width_le, ?_⟩
    have := R.total_fits; have := ha.2.1; show s.total + 1 < 2 ^ s.cntWidth; omega
  have hC : CountersOk (complete a .softMiss f { s with tlbq := q }) := by
    refine ⟨?_, ?_, C.filled_le⟩
    · show s.total + 1 = s.tlbHits + (s.tlbMisses + 1); have := C.total_eq; omega
    · show s.pageFaults ≤ s.tlbMisses + 1; have := C.faults_le; omega
  have hG : SmallTlbComplete (complete a .softMiss f { s with tlbq := q }) := by
    intro hn p
    have hG := G hn (pageOf a)
    rw [hf, hpt] at hG; simp at hG
  exact ⟨hR, ⟨S.code_iff, S.halted_err⟩, hT, ⟨P.exclusive, P.in_range, P.inverse⟩, ⟨F.occupied_iff, F.cursor_eq⟩,
    hL, hC, hG, ⟨M.fs_wf, M.bs_wf, M.fs_in_range⟩, X, ⟨RR.cursor_eq, RR.filled_eq⟩⟩

/-- A hard miss keeps a sound state sound (R204) if the frame it fills is one below NUM_FRAMES that is EMPTY exactly
while not FULL, and then the one CURSOR names. -/
theorem inv_hardMiss {s : State} {a : Addr} {f : Frame} (h : Inv s) (ha : Admitted s a) (hm : Misses s a)
    (hlt : f.toNat < s.numFrames.toNat) (hfree : ownerOf s f = none ↔ s.filled ≠ s.numFrames)
    (hvc : isFull s = false → f = s.cursor) :
    Inv (complete a .hardMiss f (fillFrame (pageOf a) f (bsPage s (pageOf a)) (bsReadDone s))) := by
  obtain ⟨hf, hpt⟩ := hm
  have hv := And.intro hlt hfree
  generalize hpe : pageOf a = p at *
  obtain ⟨R, S, T, P, F, L, C, G, M, X, RR⟩ := h
  have hag : ∀ q, ownerOf (bsReadDone s) f = some q → ptLookup (bsReadDone s) q = some f :=
    fun q hq => (P.inverse f q).mp hq
  have hpt' := ptLookup_fillFrame p (bsPage s p) hag
  have hown' := ownerOf_fillFrame p (bsPage s p) hag
  have htlb' := tlbq_fillFrame p (bsPage s p) hag
  have hfil' := filled_fillFrame p (bsPage s p) hag
  have hfs' := fillFrame_fs p f (bsPage s p) (bsReadDone s)
  have hcur' := fillFrame_cursor p f (bsPage s p) (bsReadDone s)
  have o0 : ∀ g, ownerOf (bsReadDone s) g = ownerOf s g := fun g => rfl
  have p0 : ∀ g, ptLookup (bsReadDone s) g = ptLookup s g := fun g => rfl
  simp only [o0, p0, bsReadDone_tlbq, bsReadDone_filled, bsReadDone_fs,
    bsReadDone_cursor, bsReadDone_numFrames] at hpt' hown' htlb' hfil' hfs' hcur'
  have hnf : (fillFrame p f (bsPage s p) (bsReadDone s)).numFrames = s.numFrames := by simp
  generalize hu : fillFrame p f (bsPage s p) (bsReadDone s) = u at *
  obtain ⟨q', hq', htlb'⟩ : ∃ q', ((ownerOf s f = none ∧ q' = s.tlbq) ∨
      ∃ q, ownerOf s f = some q ∧ q' = dropPage s.tlbq q) ∧ u.tlbq = insertPair q' p f := by
    rw [htlb']
    cases ownerOf s f with
    | none => exact ⟨_, .inl ⟨rfl, rfl⟩, rfl⟩
    | some q => exact ⟨_, .inr ⟨q, rfl, rfl⟩, rfl⟩
  have htl : q'.lookup p = none := by
    have hf : s.tlbq.lookup p = none := hf
    rcases hq' with ⟨_, rfl⟩ | ⟨q, _, rfl⟩
    · exact hf
    · simp [lookup_dropPage, hf]
  have hnp : ∀ g, ownerOf s g ≠ some p := by
    intro g hg; rw [(P.inverse g p).mp hg] at hpt; cases hpt
  have hshape : (q'.map Prod.fst).Nodup ∧ q'.length ≤ 16 := by
    rcases hq' with ⟨_, rfl⟩ | ⟨q, _, rfl⟩
    · exact ⟨T.pages_nodup, T.length_le⟩
    · exact ⟨nodup_dropPage _ T.pages_nodup, le_trans (dropPage_length_le _ _) T.length_le⟩
  have hmemq : ∀ e ∈ q', e ∈ s.tlbq ∧ ownerOf s f ≠ some e.1 := by
    intro e he
    rcases hq' with ⟨ho, rfl⟩ | ⟨q, ho, rfl⟩
    · exact ⟨he, by simp [ho]⟩
    · rw [mem_dropPage] at he; exact ⟨he.1, by rw [ho]; simpa using fun h => he.2 h.symm⟩
  have sh := insertPair_shape p f hshape.1 hshape.2
  have hfull : s.filled.toNat ≠ s.numFrames.toNat ↔ ownerOf s f = none := by
    rw [hv.2]; simp [BitVec.toNat_inj]
  have hfle := R.filled_le
  have hnle := R.frames_le
  have hnpos := R.frames_pos
  have hfil2 : u.filled.toNat = if ownerOf s f = none then s.filled.toNat + 1 else s.filled.toNat := by
    rw [hfil']; cases ho : ownerOf s f with
    | none =>
      have := hfull.mpr ho
      simp [BitVec.toNat_add]; omega
    | some q => simp
  have hcur2 : u.cursor.toNat = (s.cursor.toNat + 1) % s.numFrames.toNat := by
    rw [hcur']; have := Nat.mod_lt (s.cursor.toNat + 1) (show 0 < s.numFrames.toNat by omega)
    simp; omega
  have hdis : ∀ g k j, g ≠ f → k < 256 → j < 256 → frameBase g + k ≠ frameBase f + j := by
    intro g k j hg hk hj he
    apply hg; apply BitVec.eq_of_toNat_eq; simp only [frameBase] at he; omega
  have hcnt1 := C.total_eq
  have hcnt2 := C.faults_le
  have hcnt3 := C.filled_le
  have hr1 := RR.cursor_eq
  have hr2 := RR.filled_eq
  have e1 : u.total = s.total := by rw [← hu]; simp
  have e2 : u.tlbHits = s.tlbHits := by rw [← hu]; simp
  have e3 : u.tlbMisses = s.tlbMisses := by rw [← hu]; simp
  have e4 : u.pageFaults = s.pageFaults := by rw [← hu]; simp
  have e5 : u.cntWidth = s.cntWidth := by rw [← hu]; simp
  have e6 : u.lruq = s.lruq := by rw [← hu]; simp
  have e7 : u.bs = s.bs := by rw [← hu]; simp
  have e8 : u.err = s.err := by rw [← hu]; simp
  have e9 : u.errCode = s.errCode := by rw [← hu]; simp
  have e10 : u.halted = s.halted := by rw [← hu]; simp
  refine ⟨⟨?_, ?_, ?_, ?_, ?_, ?_, ?_⟩, ⟨?_, ?_⟩, ⟨?_, ?_, ?_⟩, ⟨?_, ?_, ?_⟩, ⟨?_, ?_⟩, ⟨?_, ?_⟩, ⟨?_, ?_, ?_⟩,
    ?_, ⟨?_, ?_, ?_⟩, ?_, ⟨?_, ?_⟩⟩
  · simpa [hnf] using hnpos
  · simpa [hnf] using hnle
  · show u.cursor.toNat < u.numFrames.toNat
    rw [hcur2, hnf]; exact Nat.mod_lt _ (by omega)
  · show u.filled.toNat ≤ u.numFrames.toNat
    rw [hfil2, hnf]; split
    · next ho => have := hfull.mpr ho; omega
    · exact hfle
  · simpa [e5] using R.width_pos
  · simpa [e5] using R.width_le
  · have := R.total_fits; have := ha.2.1; show u.total + 1 < 2 ^ u.cntWidth; rw [e1, e5]; omega
  · simpa [e8, e9] using S.code_iff
  · simpa [e8, e10] using S.halted_err
  · show u.tlbq.length ≤ 16; rw [htlb']; exact sh.2
  · show (u.tlbq.map Prod.fst).Nodup; rw [htlb']; exact sh.1
  · intro e he
    have he : e ∈ u.tlbq := he
    show ptLookup u e.1 = some e.2
    rw [htlb', insertPair_new f htl, List.mem_append, List.mem_singleton] at he
    rw [hpt']
    rcases he with he | rfl
    · have he' : e ∈ q' := by
        split at he
        · exact List.mem_of_mem_tail he
        · exact he
      have h2 := hmemq e he'
      have h3 := T.agrees e h2.1
      have h4 : e.1 ≠ p := by intro hh; rw [hh, hpt] at h3; cases h3
      rw [if_neg h4, if_neg h2.2, h3]
    · simp
  · intro x y g hx hy
    have hx : ptLookup u x = some g := hx
    have hy : ptLookup u y = some g := hy
    rw [hpt'] at hx hy
    have aux : ∀ z, ptLookup s z = some f → ownerOf s f = some z := fun z hz => (P.inverse f z).mpr hz
    by_cases hxp : x = p
    · by_cases hyp : y = p
      · rw [hxp, hyp]
      · rw [if_pos hxp] at hx; cases hx
        rw [if_neg hyp] at hy
        split_ifs at hy with h1
        exact absurd (aux _ hy) h1
    · rw [if_neg hxp] at hx
      split_ifs at hx with h1
      by_cases hyp : y = p
      · rw [if_pos hyp] at hy; cases hy
        exact absurd (aux _ hx) h1
      · rw [if_neg hyp] at hy
        split_ifs at hy with h2
        exact P.exclusive _ _ _ hx hy
  · intro x g hx
    show g.toNat < u.numFrames.toNat
    rw [hnf]
    have hx : ptLookup u x = some g := hx
    rw [hpt'] at hx
    split_ifs at hx
    · cases hx; exact hv.1
    · exact P.in_range _ _ hx
  · intro g x
    show ownerOf u g = some x ↔ ptLookup u x = some g
    rw [hpt', hown']
    have i1 := P.inverse g x
    by_cases hg : g = f
    · subst hg
      simp only [if_true]
      by_cases hx : x = p
      · simp [hx]
      · simp only [hx, if_false]
        constructor
        · intro h; simp at h; exact absurd h.symm hx
        · intro h; split_ifs at h with h5
          exact absurd (i1.mpr h) h5
    · rw [if_neg hg, i1]
      by_cases hx : x = p
      · subst hx; simp [hpt, Ne.symm hg]
      · rw [if_neg hx]
        by_cases ho : ownerOf s f = some x
        · rw [if_pos ho, (P.inverse f x).mp ho]; simp [Ne.symm hg]
        · rw [if_neg ho]
  · intro g
    show (ownerOf u g).isSome = true ↔ g.toNat < u.filled.toNat
    rw [hown', hfil2]
    have o1 := F.occupied_iff g
    have o2 := F.occupied_iff f
    by_cases hg : g = f
    · subst hg; simp only [if_true, Option.isSome_some, true_iff]
      split
      · next ho =>
        have hne := hfull.mpr ho
        have hb : isFull s = false := by simp [isFull]; intro hh; exact hne (by rw [hh])
        have := F.cursor_eq hb
        rw [hvc hb]; omega
      · next ho => exact o2.mp (by simpa [Option.isSome_iff_ne_none] using ho)
    · rw [if_neg hg, o1]
      split
      · next ho =>
        have hne := hfull.mpr ho
        have hb : isFull s = false := by simp [isFull]; intro hh; exact hne (by rw [hh])
        have hc := F.cursor_eq hb
        rw [← hvc hb] at hc
        have : g.toNat ≠ f.toNat := fun hh => hg (BitVec.eq_of_toNat_eq hh)
        omega
      · rfl
  · intro hb
    have hb : isFull u = false := hb
    show u.cursor.toNat = u.filled.toNat
    have hb' : u.filled.toNat ≠ u.numFrames.toNat := by
      intro hh; simp [isFull] at hb; exact hb (BitVec.eq_of_toNat_eq hh)
    rw [hnf] at hb'
    rw [hcur2]
    rw [hfil2] at hb' ⊢
    split
    · next ho =>
      rw [if_pos ho] at hb'
      have hne := hfull.mpr ho
      have hb2 : isFull s = false := by simp [isFull]; intro hh; exact hne (by rw [hh])
      have hc := F.cursor_eq hb2
      rw [hc, Nat.mod_eq_of_lt (by omega)]
    · next ho =>
      rw [if_neg ho] at hb'
      exact absurd (hfull.mp hb') ho
  · show ((u.lruq.filter fun x => x != f) ++ [f]).Nodup
    rw [e6]; exact nodup_report _ L.nodup
  · intro g
    show g ∈ ((u.lruq.filter fun x => x != f) ++ [f]) ↔ (ownerOf u g).isSome = true
    rw [mem_report, e6, L.mem_iff, hown']
    by_cases hg : g = f <;> simp [hg]
  · show u.total + 1 = u.tlbHits + (u.tlbMisses + 1); omega
  · show u.pageFaults + 1 ≤ u.tlbMisses + 1; omega
  · show u.filled.toNat ≤ u.pageFaults + 1; rw [hfil2]; split <;> omega
  · intro hn x
    have hn : s.numFrames.toNat ≤ 16 := by simpa [hnf] using hn
    show (u.tlbq.lookup x).isSome = (ptLookup u x).isSome
    have hG := G hn
    have hlen : q'.length ≠ 16 := by
      have hnd := tlb_frames_nodup T P
      rcases hq' with ⟨ho, rfl⟩ | ⟨q, ho, rfl⟩
      · have : s.tlbq.length ≤ s.filled.toNat := length_le_of_frames s.tlbq Prod.snd _ hnd (by
          intro e he
          rw [← F.occupied_iff, (P.inverse _ _).mpr (T.agrees e he)]; rfl)
        have := hfull.mpr ho
        omega
      · have h16 : s.tlbq.length ≤ s.numFrames.toNat := length_le_of_frames s.tlbq Prod.snd _ hnd (by
          intro e he; exact P.in_range _ _ (T.agrees e he))
        have hq : (tlbFind s q).isSome = true := by rw [hG, (P.inverse _ _).mp ho]; rfl
        obtain ⟨g, hg⟩ := Option.isSome_iff_exists.mp hq
        have := dropPage_length_lt (lookup_some_mem hg)
        omega
    rw [htlb', insertPair_new f htl, if_neg hlen, hpt']
    by_cases hx : x = p
    · subst hx; rw [lookup_append_last _ _ _ htl]; simp
    · rw [lookup_append_other _ _ _ _ hx, if_neg hx]
      have hGx := hG x
      unfold tlbFind at hGx
      rcases hq' with ⟨ho, rfl⟩ | ⟨q, ho, rfl⟩
      · simpa [ho] using hGx
      · simp only [ho, lookup_dropPage, Option.some.injEq]
        by_cases hxq : x = q
        · simp [hxq]
        · rw [if_neg hxq, if_neg (Ne.symm hxq)]; exact hGx
  · show u.fs.wf; rw [hfs']; exact Memory.write_wf _ _ _ M.fs_wf
  · show u.bs.wf; rw [e7]; exact M.bs_wf
  · intro c hc
    show c.1 < u.numFrames.toNat * 256
    have hc : c ∈ u.fs := hc
    rw [hfs'] at hc
    rw [hnf]
    rcases Memory.mem_write _ _ _ _ hc with h | h
    · exact M.fs_in_range c h.1
    · have := hv.1; simp [frameBase] at h; omega
  · intro x g hx k hk
    show u.fs.read? _ = some (bsByte u _)
    rw [bsByte_congr e7]
    have hx : ptLookup u x = some g := hx
    rw [hpt'] at hx
    rw [hfs', Memory.read?_write, length_bsPage]
    split_ifs at hx with hx1 hx2
    · cases hx; subst hx1
      rw [if_pos (by omega)]
      simp [bsPage, hk]
    · have hg : g ≠ f := by
        intro hh; rw [hh] at hx; exact hx2 ((P.inverse _ _).mpr hx)
      rw [if_neg]
      · exact X _ _ hx k hk
      · rintro ⟨l1, l2⟩
        exact hdis g k (frameBase g + k - frameBase f) hg hk (by omega) (by omega)
  · show u.cursor.toNat = (u.pageFaults + 1) % u.numFrames.toNat
    rw [hcur2, e4, hnf, hr1]; simp [Nat.add_mod]
  · show u.filled.toNat = min (u.pageFaults + 1) u.numFrames.toNat
    rw [hfil2, e4, hnf]
    split
    · next ho => have := hfull.mpr ho; omega
    · next ho =>
      have : s.filled.toNat = s.numFrames.toNat := by by_contra hh; exact ho (hfull.mp hh)
      omega

/-- Taking a move from the channel keeps a sound state sound. -/
theorem inv_takeMove {s : State} (rest : List HostMove) (h : Inv s) : Inv (takeMove rest s) :=
  inv_of_status h ⟨h.status.code_iff, h.status.halted_err⟩ rfl

/-- What the host provides for the next run leaves a sound state sound (R292). -/
theorem inv_loadMemories {s : State} (bytes : List Host.Cell) (trace : List Addr) (h : Inv s) :
    Inv (loadMemories bytes trace s) := inv_of_status h ⟨h.status.code_iff, h.status.halted_err⟩ rfl

end Sys2Proof.Machine
end

