-- ==== Sys2Proof/Laws/PerInstr.lean ====
section
/-!
SUPPORT. Per-instruction families. `TableRow`: the word of a command lies in its row of spec/opcode_table.json, that is,
`word &&& mask = match`, for every value of its operands.
-/

namespace Sys2Proof.Laws.TableRow

/-- The mask of the command's row of spec/opcode_table.json. -/
def mask : Instr → Word
  | .init _ _ => 0xFFFFF800
  | .translate _ => 0xFFFF0000
  | .summary => 0xFFFFFFFF
  | .probePt _ => 0xFFFFFF00
  | .probeTlb _ => 0xFFFFFF00

/-- The match value of the command's row of spec/opcode_table.json. -/
def pattern : Instr → Word
  | .init _ _ => 0x10000000
  | .translate _ => 0x20000000
  | .summary => 0x30000000
  | .probePt _ => 0x40000000
  | .probeTlb _ => 0x50000000

/-- The word of the command fits its row. -/
def Statement (i : Instr) : Prop := encode i &&& mask i = pattern i

theorem init (nframes : BitVec 9) (policy : BitVec 2) : Statement (.init nframes policy) := by
  simp only [Statement, encode, mask, pattern]
  ext k hk
  simp only [BitVec.getElem_and, BitVec.getElem_append]
  interval_cases k <;> simp

theorem translate (addr : Addr) : Statement (.translate addr) := by
  simp only [Statement, encode, mask, pattern]
  ext k hk
  simp only [BitVec.getElem_and, BitVec.getElem_append]
  interval_cases k <;> simp

theorem summary : Statement .summary := by unfold Statement; decide

theorem probePt (page : Page) : Statement (.probePt page) := by
  simp only [Statement, encode, mask, pattern]
  ext k hk
  simp only [BitVec.getElem_and, BitVec.getElem_append]
  interval_cases k <;> simp

theorem probeTlb (page : Page) : Statement (.probeTlb page) := by
  simp only [Statement, encode, mask, pattern]
  ext k hk
  simp only [BitVec.getElem_and, BitVec.getElem_append]
  interval_cases k <;> simp

end Sys2Proof.Laws.TableRow
end

