-- ==== Sys2Proof/Tests/Slice0.lean ====
section
/-!
SUPPORT. Tests of single operations and single steps, expected values from 95_test_vectors.md and the encodings of
30_encoding.md; and, for every obligation with hypotheses, states and operands that meet them.
-/

namespace Sys2Proof.Tests

open Sys2Proof Sys2Proof.Machine

/-! ### Helpers -/

/-- The host's moves `moves`, from state `s`. -/
def withMoves (moves : List HostMove) (s : State) : State := { s with host := moves }

/-- The answers of the port to the coming reads. -/
def withPort (answers : List BsAnswer) (s : State) : State := { s with bsAnswers := answers }

/-- Does the step go on? -/
def goesOn : Host.Outcome State Fault Refusal → Bool
  | .next _ => true
  | .fault _ => false
  | .refused _ => false

/-- The first two words of each response delivered so far. -/
def heads : Host.Outcome State Fault Refusal → List (List Word)
  | .next t => t.sent.map fun r => r.take 2
  | .fault _ => []
  | .refused _ => []

theorem exists_next {o : Host.Outcome State Fault Refusal} (h : goesOn o = true) : ∃ t, o = .next t := by
  cases o with
  | next t => exact ⟨t, rfl⟩
  | fault _ => exact Bool.noConfusion h
  | refused _ => exact Bool.noConfusion h

/-- A run just started, with a port that answers two reads. -/
def started (n : BitVec 9) (p : Policy) : State := startRun n p (withPort [.ok, .ok] State.reset)

/-- The one frame of a FIFO run holds page 5, brought in by `TRANSLATE 0x0500`. -/
def held : State :=
  complete 0x0500 .hardMiss 0 (fillFrame (pageOf 0x0500) 0 (bsPage (started 1 .fifo) (pageOf 0x0500))
    (bsReadDone (started 1 .fifo)))

/-- FULL with one frame of page 5, under a policy that does not follow CURSOR. -/
def fullOf (p : Policy) : State :=
  { State.reset with
    policy := p, numFrames := 1, filled := 1, lruq := [0], bsAnswers := [.ok]
    owner := State.reset.owner.set 0 (some 5), pt := State.reset.pt.set 5 (some 0), trace := [0, 0x0100, 0x0500] }

/-- Sixteen pairs of pages 0..15 in frames 0..15. -/
def sixteen : State := { State.reset with tlbq := (List.range 16).map fun k => (BitVec.ofNat 8 k, BitVec.ofNat 8 k) }

/-! ### Well-formedness: an ill-formed term for each check -/

theorem test_wf_refuses_no_frames : (Instr.init 0 0).wf = false := by decide
theorem test_wf_refuses_257_frames : (Instr.init 257 0).wf = false := by decide
theorem test_wf_refuses_policy_3 : (Instr.init 1 3).wf = false := by decide
theorem test_wf_accepts_the_bounds : (Instr.init 1 0).wf = true ∧ (Instr.init 256 2).wf = true := by decide

/-! ### Decoding: words written out from R92 to R96 (OP, reserved bits, operand fields) -/

-- R92: OP 0001, seventeen zeros, POLICY 10 (OPT), NFRAMES 000000010.
theorem test_decode_init : decode 0b00010000000000000000010000000010 = .ok (.init 2 2) := by decide
-- R93: OP 0010, twelve zeros, ADDR 0001001000110100 (0x1234).
theorem test_decode_translate : decode 0b00100000000000000001001000110100 = .ok (.translate 0x1234) := by decide
-- R94: OP 0011, zeros.
theorem test_decode_summary : decode 0b00110000000000000000000000000000 = .ok .summary := by decide
-- R95: OP 0100, twenty zeros, PAGE 10000001.
theorem test_decode_probePt : decode 0b01000000000000000000000010000001 = .ok (.probePt 129) := by decide
-- R96: OP 0101, twenty zeros, PAGE 00010000.
theorem test_decode_probeTlb : decode 0b01010000000000000000000000010000 = .ok (.probeTlb 16) := by decide
-- ENC-2 and ENC-4, the other way round.
theorem test_encode : encode (.init 256 0) = 0x10000100 ∧ encode (.translate 0xFFFF) = 0x2000FFFF := by decide
theorem test_decodeTableWord : decodeTableWord 32 0x50000010 = some (.probeTlb 16) ∧ decodeTableWord 32 0 = none := by
  decide
theorem test_withFetchWord : step (State.reset.withFetchWord 32 0x30000000) = exec .summary State.reset := by rfl

/-! ### Operations -/

-- DEC-4, SEXT-3, SEXT-4, SEXT-5.
theorem test_address : pageOf 0x1234 = 18 ∧ offsetOf 0x1234 = 52 := by decide
theorem test_signedValue : signedValue 0x7F = 127 ∧ signedValue 0x80 = -128 ∧ signedValue 0xFE = -2 := by decide
-- TLB-2: a hit moves its pair to the end.
theorem test_tlb_promotes :
    (tlbLookup 0 { State.reset with tlbq := [(0, 0), (1, 1)] }).2.tlbq = [(1, 1), (0, 0)] := by decide
-- TLB-6: the insert of a 17th page drops the first pair.
theorem test_tlb_evicts_first : (insertPair sixteen.tlbq 16 16).head? = some (1, 1) ∧
    (insertPair sixteen.tlbq 16 16).getLast? = some (16, 16) ∧ (insertPair sixteen.tlbq 16 16).length = 16 := by decide
-- TLB-7: the refresh of a page that is there.
theorem test_tlb_refresh : insertPair [(0, 0), (1, 1)] 0 5 = [(1, 1), (0, 5)] := by decide
-- PT-3: mapping a frame that page 0 holds clears page 0 and its pair.
theorem test_ptMap_clears :
    let s := ptMap 3 0 (setOwner 0 (some 0) (setPt 0 (some 0) { State.reset with tlbq := [(0, 0)] }))
    ptLookup s 0 = none ∧ s.tlbq = [] ∧ ptLookup s 3 = some 0 ∧ ownerOf s 0 = some 3 := by decide
-- REP-4 and REP-5: farthest next use; a tie of INF goes to the lowest frame.
theorem test_select_opt :
    let s := { State.reset with numFrames := 2, trace := [0x0000, 0x0100, 0x0200, 0x0000, 0x0300, 0x0100] }
    selectOpt (setOwner 1 (some 1) (setOwner 0 (some 0) s)) 2 = 1 ∧
      selectOpt (setOwner 1 (some 2) (setOwner 0 (some 0) s)) 4 = 0 := by decide
-- REP-9.
theorem test_report_access : (reportAccess 0 { State.reset with lruq := [0, 1] }).lruq = [1, 0] := by decide
-- R106, ENC: bytes 0, 1, 2, 3 give 0x03020100.
theorem test_pack : packWord [0, 1, 2, 3] 0 = 0x03020100 := by decide
-- R107, R108 with ENC-3 and DEC-4.
theorem test_assemble : assembleLine "INIT 2, OPT ; comment".toList = some [0x10000402] ∧
    assembleLine "TRANSLATE 18:0x34".toList = some [0x20001234] ∧ assembleLine "INIT 257, FIFO".toList = none := by decide
-- RATE-4, from a SUMMARY response.
theorem test_rates : ratesOf [0x30000402, 6, 5, 1, 5] = some (5 / 6, 1 / 6) := by
  simp [ratesOf, rateOf]
-- RATE-1, RATE-4 (5/6 and 1/6) and RATE-5, rendered where rounding cannot matter.
theorem test_renderedRate : renderedRate 0 = 0 ∧ renderedRate (5 / 6) = 833 ∧ renderedRate (1 / 6) = 167 ∧
    renderedRate (7 / 8) = 875 := by decide +kernel
-- R293: a filling in the middle of a run changes nothing of the run; R292: the next run starts with it.
theorem test_load_waits_for_the_run :
    (loadMemories [(5, 1)] [9] State.reset).bs = [] ∧
      (startRun 2 .opt (loadMemories [(5, 1)] [9] State.reset)).bs = [(5, 1)] ∧
      (startRun 2 .opt (loadMemories [(5, 1)] [9] State.reset)).trace = [9] := by decide
theorem test_hexDump : hexDump [0x00, 0x1F, 0xFE] = "001FFE".toList := by decide

/-! ### Single steps -/

-- CTL-2 and ERR-6.
theorem test_init : heads (exec (.init 256 2) State.reset) = [[0x20000500]] := by decide
theorem test_init_bad_frames_first : heads (exec (.init 0 3) State.reset) = [[0xF3000000]] := by decide
-- TR-1, with the one byte it reads given: BS[0xFFFF] = 0xFE.
theorem test_translate_hard_miss :
    heads (exec (.translate 0xFFFF) { State.reset with bs := [(0xFFFF, 0xFE)], bsAnswers := [.ok] }) =
      [[0x1800FFFF, 0x000000FE]] := by decide +kernel
-- TR-8: under OPT the address itself must be the trace's, not only its page.
theorem test_translate_trace_mismatch :
    heads (exec (.translate 1) { State.reset with policy := .opt, trace := [0] }) = [[0xF8000000]] := by decide
-- P6-like status: ERRCODE 1, HALTED and ERR set, and TOTAL in word 1.
theorem test_summary :
    heads (exec .summary { State.reset with errCode := .illegalOpcode, halted := true, err := true, total := 7 }) =
      [[0x31C00100, 7]] := by decide
-- PT-7, PT-6.
theorem test_probePt : heads (exec (.probePt 3) (setPt 3 (some 1) State.reset)) = [[0x40800301]] := by decide
theorem test_probePt_unmapped : heads (exec (.probePt 255) State.reset) = [[0x4000FF00]] := by decide
-- TLB-11, TLB-12.
theorem test_probeTlb :
    heads (exec (.probeTlb 1) { State.reset with tlbq := [(1, 1), (0, 0)] }) = [[0x40800101]] := by decide
theorem test_probeTlb_absent :
    heads (exec (.probeTlb 9) { State.reset with tlbq := [(1, 1), (0, 0)] }) = [[0x40000900]] := by decide

/-! ### Witnesses: sound states -/

theorem started_inv (n : BitVec 9) (p : Policy) (h1 : 1 ≤ n.toNat) (h2 : n.toNat ≤ 256) : Inv (started n p) :=
  inv_startRun p h1 h2 (by decide) (by decide) (by simp [withPort, State.reset, Memory.wf])

theorem held_inv : Inv held :=
  inv_hardMiss (started_inv 1 .fifo (by decide) (by decide)) (by unfold Admitted; decide) (by unfold Misses; decide)
    (by decide) (by decide) (by decide)

/-- The word of another command is no legal INIT. -/
theorem not_legalInit {w : Word} {i : Instr} (hi : ∀ n p, i ≠ .init n p) (hd : decode w = .ok i) : ¬ IsLegalInit w := by
  rintro ⟨n, p, hw, _⟩
  rw [hd] at hw
  cases hw
  exact hi n p rfl

/-- The word of another command starts no run. -/
theorem not_startsRun {s : State} {w : Word} {rest : List HostMove} {i : Instr} (hi : ∀ n p, i ≠ .init n p)
    (hd : decode w = .ok i) (hs : s.host = .command w :: rest) : ¬ StartsRun s := by
  rintro (⟨r, h⟩ | ⟨v, r, h⟩ | ⟨v, r, h, hl⟩) <;> rw [hs] at h <;> cases h
  exact not_legalInit hi hd hl

/-! ### Witnesses: encoding and the step -/

-- The refused operands at 0 frames, 257 frames and POLICY 3; the accepted ones at the two ends.
theorem witness_AssemblerExpandsAndRefuses :
    (0#9).toNat < 1 ∧ 256 < (257#9).toNat ∧ (3#2).toNat = 3 ∧ (1 ≤ (1#9).toNat ∧ (0#2).toNat < 3) ∧
      ((256#9).toNat ≤ 256 ∧ (2#2).toNat < 3) := by decide

theorem witness_EncodeOfDecode : decode 0x10000002 = .ok (.init 2 0) := by decide

theorem witness_StepRunsDecodedCommand :
    (withMoves [.command 0x30000000] State.reset).host = .command 0x30000000 :: [] ∧
      decode 0x30000000 = .ok .summary := by decide

-- Each clause of UndecodableWordsAnswerErrors at the ends of its range: OP 0, 6, 15; the lowest reserved bit of each OP.
theorem witness_UndecodableWordsAnswerErrors_op :
    (withMoves [.command 0x60000000] State.reset).host = .command 0x60000000 :: [] ∧
      (0x00000000#32).toNat / 2 ^ 28 = 0 ∧ 6 ≤ (0x60000000#32).toNat / 2 ^ 28 ∧
      6 ≤ (0xFFFFFFFF#32).toNat / 2 ^ 28 := by decide

theorem witness_UndecodableWordsAnswerErrors_reserved :
    (0x10000800#32).toNat / 2 ^ 28 = 1 ∧ (0x10000800#32).toNat / 2 ^ 11 % 2 ^ 17 ≠ 0 ∧
    (0x20010000#32).toNat / 2 ^ 28 = 2 ∧ (0x20010000#32).toNat / 2 ^ 16 % 2 ^ 12 ≠ 0 ∧
    (0x30000001#32).toNat / 2 ^ 28 = 3 ∧ (0x30000001#32).toNat % 2 ^ 28 ≠ 0 ∧
    (0x40000100#32).toNat / 2 ^ 28 = 4 ∧ (0x40000100#32).toNat / 2 ^ 8 % 2 ^ 20 ≠ 0 ∧
    (0x50000100#32).toNat / 2 ^ 28 = 5 ∧ (0x50000100#32).toNat / 2 ^ 8 % 2 ^ 20 ≠ 0 := by decide

theorem witness_IdleKeepsState : State.reset.host = [] := rfl

theorem witness_ResetInputResets : (withMoves [.reset] held).host = .reset :: [] := rfl

theorem witness_ResetAbandonsCommand :
    (withMoves [.resetDuring 0x20000000] held).host = .resetDuring 0x20000000 :: [] := rfl

/-- A filling provided: one byte and one trace entry. -/
def filled (s : State) : State := { s with nextFill := some { bytes := [(0xFFFF, 0xFE)], trace := [7] } }

-- A command within a run, a new run with and without a filling, and the host's move.
theorem witness_MemoriesFilledOnlyBeforeRun :
    (¬ StartsRun (withMoves [.command 0x20000600] (filled held)) ∧
      ∃ t, step (withMoves [.command 0x20000600] (filled held)) = .next t) ∧
    (StartsRun (withMoves [.reset] held) ∧ (withMoves [.reset] held).nextFill = none ∧
      ∃ t, step (withMoves [.reset] held) = .next t) ∧
    (StartsRun (withMoves [.reset] (filled held)) ∧
      (withMoves [.reset] (filled held)).nextFill = some { bytes := [(0xFFFF, 0xFE)], trace := [7] } ∧
      ∃ t, step (withMoves [.reset] (filled held)) = .next t) ∧
    (withMoves [.load [] []] held).host = .load [] [] :: [] :=
  ⟨⟨not_startsRun (i := .translate 0x0600) (by simp) (by decide) rfl, exists_next (by decide)⟩,
    ⟨.inl ⟨[], rfl⟩, rfl, exists_next (by decide)⟩, ⟨.inl ⟨[], rfl⟩, rfl, exists_next (by decide)⟩, rfl⟩

theorem witness_OneResponsePerCommand :
    (withMoves [.command 0x30000000] State.reset).host = .command 0x30000000 :: [] ∧
      ∃ t, step (withMoves [.command 0x30000000] State.reset) = .next t := ⟨rfl, exists_next (by decide)⟩

theorem witness_StepGoesOnWhenPortAnswers : PortAnswers (withMoves [.load [] []] held) := by
  unfold PortAnswers; decide

/-! ### Witnesses: invariants -/

theorem witness_StepKeepsSoundStates :
    Inv (withMoves [.command 0x20000500] (started 256 .lru)) ∧
      ∃ t, step (withMoves [.command 0x20000500] (started 256 .lru)) = .next t :=
  ⟨inv_takeMove _ (started_inv 256 .lru (by decide) (by decide)), exists_next (by decide)⟩

-- At the bound: 16 pairs, and a step that inserts one more page.
theorem witness_StepKeepsTlbShape : sixteen.tlbq.length ≤ 16 ∧ (sixteen.tlbq.map Prod.fst).Nodup ∧
    ∃ t, step (withMoves [.command 0x20001000] (withPort [.ok] sixteen)) = .next t :=
  ⟨by decide, by decide, exists_next (by decide)⟩

theorem witness_StepKeepsCounterRelations : CountersOk State.reset ∧ ∃ t, step State.reset = .next t :=
  ⟨⟨by decide, by decide, by decide⟩, State.reset, rfl⟩

theorem witness_StepKeepsStatusConsistent : StatusOk (withMoves [.command 0] State.reset) ∧
    ∃ t, step (withMoves [.command 0] State.reset) = .next t :=
  ⟨⟨by decide, by decide⟩, exists_next (by decide)⟩

theorem witness_StepKeepsMemoriesCanonical : held.fs.wf ∧ held.bs.wf ∧ ∃ t, step held = .next t :=
  ⟨held_inv.memory.fs_wf, held_inv.memory.bs_wf, held, rfl⟩

/-! ### Witnesses: INIT -/

theorem witness_InitStartsRun :
    (1 ≤ (1#9).toNat ∧ (1#9).toNat ≤ 256 ∧ (0#2).toNat = 0 ∧ Policy.fifo = .fifo) ∧
    (1 ≤ (16#9).toNat ∧ (16#9).toNat ≤ 256 ∧ (1#2).toNat = 1 ∧ Policy.lru = .lru) ∧
    (1 ≤ (256#9).toNat ∧ (256#9).toNat ≤ 256 ∧ (2#2).toNat = 2 ∧ Policy.opt = .opt) := by decide

theorem witness_InitRefusesBadOperands :
    (0#9).toNat = 0 ∧ 256 < (257#9).toNat ∧ (1 ≤ (1#9).toNat ∧ (256#9).toNat ≤ 256 ∧ (3#2).toNat = 3) := by decide

theorem witness_InitDefaultsEqualReset : (withMoves [.reset] held).host = .reset :: [] := rfl

/-! ### Witnesses: TRANSLATE -/

theorem witness_TranslateAdmissionErrors_halted : ({ State.reset with halted := true } : State).halted = true := rfl

-- CNT_WIDTH = 2 and TOTAL = 3, as in ERR-9.
theorem witness_TranslateAdmissionErrors_overflow :
    let s : State := { State.reset with cntWidth := 2, total := 3 }
    s.halted = false ∧ s.total = 2 ^ s.cntWidth - 1 := by decide

-- TOTAL = TRACE_LEN, as in TR-8 and TR-9.
theorem witness_TranslateAdmissionErrors_exhausted :
    let s : State := { State.reset with policy := .opt, trace := [0], total := 1 }
    s.halted = false ∧ s.total ≠ 2 ^ s.cntWidth - 1 ∧ s.policy = .opt ∧ s.trace.length ≤ s.total := by decide

theorem witness_TranslateAdmissionErrors_mismatch :
    let s : State := { State.reset with policy := .opt, trace := [0] }
    s.halted = false ∧ s.total ≠ 2 ^ s.cntWidth - 1 ∧ s.policy = .opt ∧ s.trace[s.total]? = some 0 ∧ (0 : Addr) ≠ 1 := by
  decide

theorem witness_TlbHitCompletes : Admitted held 0x05FF ∧ tlbFind held (pageOf 0x05FF) = some 0 := by
  unfold Admitted; decide

-- With 16 pairs, and with none.
theorem witness_SoftMissCompletes :
    (Admitted (setPt 16 (some 16) sixteen) 0x1000 ∧ tlbFind (setPt 16 (some 16) sixteen) (pageOf 0x1000) = none ∧
      ptLookup (setPt 16 (some 16) sixteen) (pageOf 0x1000) = some 16) ∧
    (Admitted (setPt 0 (some 3) State.reset) 0x0000 ∧ tlbFind (setPt 0 (some 3) State.reset) (pageOf 0x0000) = none ∧
      ptLookup (setPt 0 (some 3) State.reset) (pageOf 0x0000) = some 3) := by
  unfold Admitted; decide

theorem witness_HardMissFillsEmptyFrame :
    Inv (started 1 .fifo) ∧ Admitted (started 1 .fifo) 0x0500 ∧ Misses (started 1 .fifo) 0x0500 ∧
      ReadWillSucceed (started 1 .fifo) ∧
      ownerOf (started 1 .fifo) (selectVictim (started 1 .fifo) (started 1 .fifo).total) = none :=
  ⟨started_inv _ _ (by decide) (by decide), by unfold Admitted; decide, by unfold Misses; decide, .inl (by decide),
    by decide⟩

theorem witness_HardMissReplacesVictim :
    Inv held ∧ Admitted held 0x0600 ∧ Misses held 0x0600 ∧ ReadWillSucceed held ∧
      ownerOf held (selectVictim held held.total) = some 5 :=
  ⟨held_inv, by unfold Admitted; decide, by unfold Misses; decide, .inl (by decide), by decide⟩

theorem witness_FailedReadIsFatalAndPrecise :
    Admitted (withPort [.fail] State.reset) 0 ∧ Misses (withPort [.fail] State.reset) 0 ∧
      ReadWillFail (withPort [.fail] State.reset) :=
  ⟨by unfold Admitted; decide, by unfold Misses; decide, .inl (by decide)⟩

theorem witness_SilentPortStops :
    Admitted (withPort [.silent] State.reset) 0 ∧ Misses (withPort [.silent] State.reset) 0 ∧
      (withPort [.silent] State.reset).bsAnswers.head? = some .silent := by
  unfold Admitted Misses; decide

-- One TRANSLATE off the hard-miss path and one on it.
theorem witness_TranslateFrame :
    (∃ t, exec (.translate 0x0501) held = .next t ∧ t.pageFaults = held.pageFaults) ∧
      (∃ t, exec (.translate 0x0600) held = .next t ∧ t.pageFaults ≠ held.pageFaults) :=
  ⟨⟨_, rfl, by decide⟩, ⟨_, rfl, by decide⟩⟩

theorem witness_TranslateReturnsStoreBytes :
    Inv held ∧ ∃ t, exec (.translate 0x0501) held = .next t ∧ t.total = held.total + 1 :=
  ⟨held_inv, _, rfl, by decide⟩

theorem witness_SecondTranslateOfPageHits :
    ∃ t, exec (.translate 0x0600) held = .next t ∧ t.total = held.total + 1 ∧
      pageOf 0x06FF = pageOf 0x0600 ∧ Admitted t 0x06FF :=
  ⟨_, rfl, by decide, by decide, by unfold Admitted; decide⟩

theorem witness_NoSoftMissWithFewFrames :
    Inv (started 16 .fifo) ∧ (started 16 .fifo).numFrames.toNat ≤ 16 ∧
      ∃ t, exec (.translate 0x0600) (started 16 .fifo) = .next t :=
  ⟨started_inv _ _ (by decide) (by decide), by decide, _, rfl⟩

theorem witness_InvalidateBeforeInsert :
    Inv held ∧ (∃ t, exec (.translate 0x0600) held = .next t ∧ t.pageFaults = held.pageFaults + 1) ∧
      ownerOf held (selectVictim held held.total) = some 5 ∧ (tlbFind held 5).isSome = true :=
  ⟨held_inv, ⟨_, rfl, by decide⟩, by decide, by decide⟩

/-! ### Witnesses: the replacement selector -/

theorem witness_SelectorFollowsPolicy :
    State.reset.policy = .fifo ∧ State.reset.filled ≠ State.reset.numFrames ∧
    ((fullOf .lru).policy = .lru ∧ (fullOf .lru).filled = (fullOf .lru).numFrames ∧ (fullOf .lru).lruq = 0 :: []) ∧
    ((fullOf .opt).policy = .opt ∧ (fullOf .opt).filled = (fullOf .opt).numFrames) := by decide

-- One frame, and for each clause: a victim referenced again and one that is not.
theorem witness_OptVictimIsFarthest :
    (1 ≤ (fullOf .opt).numFrames.toNat ∧ (fullOf .opt).numFrames.toNat ≤ 256 ∧ (fullOf .opt).policy = .opt ∧
      (fullOf .opt).filled = (fullOf .opt).numFrames) ∧
    nextUse (fullOf .opt) (ownerOf (fullOf .opt) (selectVictim (fullOf .opt) 0)) 0 = some 2 ∧
    nextUse (fullOf .opt) (ownerOf (fullOf .opt) (selectVictim (fullOf .opt) 2)) 2 = none := by decide

theorem witness_OptVictimIsFarthest_256 :
    let s : State := { State.reset with policy := .opt, filled := 256 }
    1 ≤ s.numFrames.toNat ∧ s.numFrames.toNat ≤ 256 ∧ s.policy = .opt ∧ s.filled = s.numFrames := by decide

theorem witness_SignedValueIsTwosComplement : (0x7F#8).toNat < 128 ∧ 128 ≤ (0x80#8).toNat := by decide

theorem witness_FifoFramesGoRound :
    RoundRobin held ∧ held.policy = .fifo ∧
      ∃ t, exec (.translate 0x0600) held = .next t ∧ t.pageFaults = held.pageFaults + 1 :=
  ⟨held_inv.roundRobin, by decide, _, rfl, by decide⟩

theorem witness_OneFrameVictimIsZero : Inv held ∧ held.numFrames.toNat = 1 := ⟨held_inv, by decide⟩

-- Not FULL, and FULL.
theorem witness_VictimIsInRange :
    (Inv (started 2 .opt) ∧ (started 2 .opt).filled ≠ (started 2 .opt).numFrames) ∧
      (Inv held ∧ held.filled = held.numFrames) :=
  ⟨⟨started_inv _ _ (by decide) (by decide), by decide⟩, held_inv, by decide⟩

/-! ### Witnesses: the reports -/

theorem witness_ProbePtReports : ptLookup held 5 = some 0 ∧ ptLookup held 6 = none := by decide

theorem witness_ProbeTlbReports :
    (sixteen.tlbq.map Prod.fst).Nodup ∧ (15, 15) ∈ sixteen.tlbq ∧ ∀ f, ((16 : Page), f) ∉ sixteen.tlbq := by
  refine ⟨by decide, by decide, fun f hf => ?_⟩
  have h : sixteen.tlbq.lookup 16 = none := by decide
  rw [(lookup_eq_some_iff (by decide)).mpr hf] at h
  cases h

theorem witness_ContentBytesInTheirLanes : (List.replicate 256 (7 : Byte)).length = 256 ∧
    (Response.translated .tlbHit 0 0 7 (List.replicate 256 7)).words[2 + 63]? = some 0x07070707 := by decide +kernel

theorem witness_RatesAreExactShares : Inv held := held_inv

/-! ### Witnesses: rules over all commands -/

-- A command error, and the fatal one.
theorem witness_ErrorsChangeOnlyStatus :
    (∃ t, step (withMoves [.command 0] State.reset) = .next t ∧ t.sent = State.reset.sent ++ [[0xF1000000]]) ∧
    (∃ t, step (withMoves [.command 0x20000000] (withPort [.fail] State.reset)) = .next t ∧
      t.sent = State.reset.sent ++ [[0xF9000000]]) ∧ (0xF1000000#32).toNat / 2 ^ 28 = 15 ∧
    (0xF9000000#32).toNat / 2 ^ 28 = 15 :=
  ⟨⟨_, rfl, by decide⟩, ⟨_, rfl, by decide⟩, by decide, by decide⟩

-- A further error, and a new run.
theorem witness_FirstErrorCodeKept :
    let s : State := { State.reset with err := true, errCode := .illegalOpcode }
    s.err = true ∧ (∃ t, step (withMoves [.command 0x20010000] s) = .next t) ∧
      (StartsRun (withMoves [.reset] s) ∧ ∃ t, step (withMoves [.reset] s) = .next t) :=
  ⟨rfl, exists_next (by decide), .inl ⟨[], rfl⟩, exists_next (by decide)⟩

theorem witness_HaltedLeftOnlyByNewRun :
    let s : State := { State.reset with halted := true, err := true, errCode := .bsError }
    s.halted = true ∧ (∃ t, step (withMoves [.command 0x20000000] s) = .next t) ∧
      (StartsRun (withMoves [.command 0x10000001] s) ∧ ∃ t, step (withMoves [.command 0x10000001] s) = .next t) :=
  ⟨rfl, exists_next (by decide), .inr (.inr ⟨0x10000001, [], rfl, 1, 0, by decide, by decide, by decide, by decide⟩),
    exists_next (by decide)⟩

theorem witness_HaltedEnteredOnlyByBsError :
    (withPort [.fail] State.reset).halted = false ∧
      ∃ t, step (withMoves [.command 0x20000000] (withPort [.fail] State.reset)) = .next t ∧ t.halted = true :=
  ⟨rfl, _, rfl, by decide⟩

-- A counted TRANSLATE, a new run, and a SUMMARY.
theorem witness_TotalAdvancesByOne :
    (∃ t, step (withMoves [.command 0x20000500] held) = .next t ∧ t.total = held.total + 1) ∧
      (∃ t, step (withMoves [.reset] held) = .next t ∧ t.total = 0) ∧
      (∃ t, step (withMoves [.command 0x30000000] held) = .next t ∧ t.total = held.total) :=
  ⟨⟨_, rfl, by decide⟩, ⟨_, rfl, by decide⟩, ⟨_, rfl, by decide⟩⟩

theorem witness_ConfigurationFixedInRun :
    (∃ t, step (withMoves [.command 0x20000600] held) = .next t) ∧
      ¬ StartsRun (withMoves [.command 0x20000600] held) :=
  ⟨exists_next (by decide), not_startsRun (i := .translate 0x0600) (by simp) (by decide) rfl⟩

theorem witness_FramesNeverFreedInRun :
    Inv (withMoves [.command 0x20000600] held) ∧ (∃ t, step (withMoves [.command 0x20000600] held) = .next t) ∧
      ¬ StartsRun (withMoves [.command 0x20000600] held) ∧ ownerOf held 0 ≠ none :=
  ⟨inv_takeMove _ held_inv, exists_next (by decide),
    not_startsRun (i := .translate 0x0600) (by simp) (by decide) rfl, by decide⟩

-- A TRANSLATE with a filling provided, an INIT without one, and an INIT with one.
theorem witness_CommandsNeverWriteExternalMemories :
    (¬ IsLegalInit 0x20000600 ∧ ∃ t, step (withMoves [.command 0x20000600] (filled held)) = .next t) ∧
    ((withMoves [.command 0x10000001] held).nextFill = none ∧
      ∃ t, step (withMoves [.command 0x10000001] held) = .next t) ∧
    (IsLegalInit 0x10000001 ∧ (filled held).nextFill = some { bytes := [(0xFFFF, 0xFE)], trace := [7] } ∧
      ∃ t, step (withMoves [.command 0x10000001] (filled held)) = .next t) :=
  ⟨⟨not_legalInit (i := .translate 0x0600) (by simp) (by decide), exists_next (by decide)⟩,
    ⟨rfl, exists_next (by decide)⟩,
    ⟨1, 0, by decide, by decide, by decide, by decide⟩, rfl, exists_next (by decide)⟩

theorem witness_FrameInitUnobservable :
    Inv (withMoves [.command 0x20000501] held) ∧ ∃ t, step (withMoves [.command 0x20000501] held) = .next t :=
  ⟨inv_takeMove _ held_inv, exists_next (by decide)⟩

theorem witness_LruqUnreadUnlessLru :
    held.policy ≠ .lru ∧ ∃ t, step (withMoves [.command 0x20000600] held) = .next t :=
  ⟨by decide, exists_next (by decide)⟩

theorem witness_CursorUnreadOnceFull :
    (fullOf .lru).policy ≠ .fifo ∧ (fullOf .lru).filled = (fullOf .lru).numFrames ∧
      ∃ t, step (withMoves [.command 0x20000600] (fullOf .lru)) = .next t :=
  ⟨by decide, by decide, exists_next (by decide)⟩

end Sys2Proof.Tests
end

section
/-!
SUPPORT. Runs: which steps start one, what such a step leads to, and what every other step leaves of the world outside
the block (R9, R292, R293). After it the statement about the external memories.
-/

namespace Sys2Proof.Machine

/-! ### Which words and steps start a run -/

/-- POLICY 3 is the one operand that names no policy (R22). -/
theorem policyOfBits_eq_none_iff (b : BitVec 2) : policyOfBits b = none ↔ ¬ b.toNat < 3 := by
  revert b; decide

/-- A word that decodes to INIT is a legal INIT exactly when both operands are in range (R99, R230). -/
theorem isLegalInit_iff {w : Word} {n : BitVec 9} {b : BitVec 2} (hd : decode w = .ok (.init n b)) :
    IsLegalInit w ↔ 1 ≤ n.toNat ∧ n.toNat ≤ 256 ∧ b.toNat < 3 := by
  simp [IsLegalInit, hd]

/-- A command starts a run exactly when its word is a legal INIT (R15). -/
theorem startsRun_command_iff {s : State} {w : Word} {rest : List HostMove} (hs : s.host = .command w :: rest) :
    StartsRun s ↔ IsLegalInit w := by
  simp [StartsRun, hs]

/-- A legal INIT starts the run and answers INIT_DONE (R230). -/
theorem runWord_of_isLegalInit {w : Word} (s : State) (hw : IsLegalInit w) :
    ∃ n p, 1 ≤ n.toNat ∧ n.toNat ≤ 256 ∧ runWord w s = .next (respond (.initDone p n) (startRun n p s)) := by
  obtain ⟨n, b, hd, hn1, hn2, hb⟩ := hw
  have hrun : runWord w s = execInit n b s := by simp [runWord, hd, exec]
  rcases execInit_cases n b s with ⟨hbad, -⟩ | ⟨-, hnone, -⟩ | ⟨p, -, -, h⟩
  · omega
  · exact absurd hb ((policyOfBits_eq_none_iff b).mp hnone)
  · exact ⟨n, p, hn1, hn2, hrun.trans h⟩

/-- A step that starts a run leads to the start of a run in a legal configuration: without a response for the reset
input (R290, R291), with INIT_DONE for INIT (R230). -/
theorem step_of_startsRun {s t : State} (hr : StartsRun s) (h : step s = .next t) :
    ∃ n p rest, 1 ≤ n.toNat ∧ n.toNat ≤ 256 ∧
      (t = startRun n p (takeMove rest s) ∨ t = respond (.initDone p n) (startRun n p (takeMove rest s))) := by
  rcases hr with ⟨rest, hs⟩ | ⟨w, rest, hs⟩ | ⟨w, rest, hs, hw⟩
  · simp only [step, runMove, hs, Host.Outcome.next.injEq] at h
    exact ⟨256, .fifo, rest, by decide, by decide, .inl h.symm⟩
  · simp only [step, runMove, hs, Host.Outcome.next.injEq] at h
    exact ⟨256, .fifo, rest, by decide, by decide, .inl h.symm⟩
  · obtain ⟨n, p, hn1, hn2, hrun⟩ := runWord_of_isLegalInit (takeMove rest s) hw
    rw [step_command hs, hrun, Host.Outcome.next.injEq] at h
    exact ⟨n, p, rest, hn1, hn2, .inr h.symm⟩

/-! ### What the commands leave of the outside world -/

/-- The memories outside the block, what is provided for the next run and the run parameter CNT_WIDTH are as they were
(R9, R64, R66). -/
structure OutsideKept (s t : State) : Prop where
  bs : t.bs = s.bs
  trace : t.trace = s.trace
  nextFill : t.nextFill = s.nextFill
  cntWidth : t.cntWidth = s.cntWidth

theorem outsideKept_raiseError (c : ErrCode) (fatal : Bool) (s : State) : OutsideKept s (raiseError c fatal s) :=
  ⟨rfl, rfl, rfl, rfl⟩

theorem outsideKept_hardMiss (a : Addr) (s : State) : OutsideKept s (hardMiss a s) := by
  rcases hardMiss_cases a s with ⟨-, h⟩ | ⟨-, h⟩ <;> rw [h]
  · exact ⟨rfl, rfl, rfl, rfl⟩
  · constructor <;> simp

/-- TRANSLATE reads the memories outside and writes none of them, on every path. -/
theorem outsideKept_execTranslate {a : Addr} {s t : State} (h : execTranslate a s = .next t) : OutsideKept s t := by
  rcases execTranslate_cases h with ⟨c, -, rfl⟩ | ⟨-, f, -, rfl⟩ | ⟨-, -, f, -, rfl⟩ | ⟨-, -, -, -, rfl⟩
  · exact outsideKept_raiseError c false s
  · exact ⟨rfl, rfl, rfl, rfl⟩
  · exact ⟨rfl, rfl, rfl, rfl⟩
  · exact outsideKept_hardMiss a s

/-- An INIT with an operand out of range only answers an error (R255, R256). -/
theorem outsideKept_execInit {n : BitVec 9} {b : BitVec 2} {s t : State} (h : execInit n b s = .next t)
    (hbad : ¬ (1 ≤ n.toNat ∧ n.toNat ≤ 256 ∧ b.toNat < 3)) : OutsideKept s t := by
  rcases execInit_cases n b s with ⟨-, he⟩ | ⟨-, -, he⟩ | ⟨p, hn, hp, -⟩
  · rw [he] at h; cases h; exact outsideKept_raiseError _ _ s
  · rw [he] at h; cases h; exact outsideKept_raiseError _ _ s
  · have hb : b.toNat < 3 := by
      by_contra hb
      rw [(policyOfBits_eq_none_iff b).mpr hb] at hp
      cases hp
    exact absurd ⟨by omega, by omega, hb⟩ hbad

/-- A decoded command other than a legal INIT leaves the world outside. -/
theorem outsideKept_exec {w : Word} {i : Instr} {s t : State} (hd : decode w = .ok i) (hw : ¬ IsLegalInit w)
    (h : exec i s = .next t) : OutsideKept s t := by
  cases i with
  | init n b => exact outsideKept_execInit h (mt (isLegalInit_iff hd).mpr hw)
  | translate a => exact outsideKept_execTranslate h
  | summary => cases h; exact ⟨rfl, rfl, rfl, rfl⟩
  | probePt p => cases h; exact ⟨rfl, rfl, rfl, rfl⟩
  | probeTlb p => cases h; exact ⟨rfl, rfl, rfl, rfl⟩

/-! ### The external memories along a run -/

/-- Within a run BS and TRACE stay as they are, whatever the host does (R293). -/
theorem step_keeps_memories {s t : State} (h : step s = .next t) (hr : ¬ StartsRun s) :
    t.bs = s.bs ∧ t.trace = s.trace := by
  rcases step_cases h with ⟨-, rfl⟩ | ⟨w, rest, i, hs, hd, hx⟩ | ⟨w, rest, c, -, -, rfl⟩ | ⟨rest, hs, -⟩ |
    ⟨bytes, trace, rest, -, rfl⟩
  · exact ⟨rfl, rfl⟩
  · have hk := outsideKept_exec hd (mt (startsRun_command_iff hs).mpr hr) hx
    exact ⟨hk.bs, hk.trace⟩
  · exact ⟨rfl, rfl⟩
  · exact absurd (hs.elim (fun h => .inl ⟨rest, h⟩) fun ⟨w, h⟩ => .inr (.inl ⟨w, rest, h⟩)) hr
  · exact ⟨rfl, rfl⟩

/-- A step that starts a run takes what the host has provided, and nothing is left provided (R292). -/
theorem step_fills_memories {s t : State} (h : step s = .next t) (hr : StartsRun s) :
    t.bs = nextBs s ∧ t.trace = nextTrace s ∧ t.nextFill = none := by
  obtain ⟨n, p, rest, -, -, rfl | rfl⟩ := step_of_startsRun hr h <;> exact ⟨rfl, rfl, rfl⟩

/-- Settles O11: a step within a run keeps the memories, one that starts a run takes the filling or, without one, what
was there; the load move is the step's own equation. -/
theorem memoriesFilledOnlyBeforeRun : Obligations.MemoriesFilledOnlyBeforeRun := by
  refine ⟨fun s t h => ⟨step_keeps_memories h, fun hr hf => ?_, fun f hr hf => ?_⟩, fun s bytes tr rest hs => ?_⟩
  · simpa [nextBs, nextTrace, hf] using step_fills_memories h hr
  · simpa [nextBs, nextTrace, hf] using step_fills_memories h hr
  · simp [step, runMove, hs, loadMemories, takeMove]

end Sys2Proof.Machine
end

section
/-!
SUPPORT. The step as a relation: the cases of a step that goes on, each with the condition under which it is taken and
the state it leads to (R97, R200, R230, R290, R292). Every invariant of 10_state.md is a case analysis of it.
-/

namespace Sys2Proof.Machine

/-! ### The cases of TRANSLATE -/

/-- The port fails the coming read exactly when it answers and the answer is not the page (R65, U8). -/
theorem readWillFail_iff (s : State) : ReadWillFail s ↔ bsSilent s = false ∧ bsReadFails s = true := by
  unfold ReadWillFail bsSilent bsReadFails
  rcases s.bsAnswers with _ | ⟨answer, rest⟩
  · simp
  · cases answer <;> simp

/-- The port returns the page at the coming read exactly when it answers and does not fail (R65, U8). -/
theorem readWillSucceed_iff (s : State) : ReadWillSucceed s ↔ bsSilent s = false ∧ bsReadFails s = false := by
  unfold ReadWillSucceed bsSilent bsReadFails
  rcases s.bsAnswers with _ | ⟨answer, rest⟩
  · simp
  · cases answer <;> simp

/-- `TranslateTo a s t`: TRANSLATE of the address leads from `s` to `t`, by one of the paths of R200 to R204. -/
inductive TranslateTo (a : Addr) (s : State) : State → Prop
  /-- An admission check refuses it (R200). -/
  | refused {c : ErrCode} (hc : admission a s = some c) : TranslateTo a s (raiseError c false s)
  /-- TLB hit (R202). -/
  | tlbHit {f : Frame} (ha : Admitted s a) (hf : tlbFind s (pageOf a) = some f) :
      TranslateTo a s (complete a .tlbHit f (tlbPromote (pageOf a) f s))
  /-- Soft miss (R203). -/
  | softMiss {f : Frame} (ha : Admitted s a) (hf : tlbFind s (pageOf a) = none)
      (hp : ptLookup s (pageOf a) = some f) :
      TranslateTo a s (complete a .softMiss f (tlbInsert (pageOf a) f s))
  /-- Hard miss whose read fails (R209). -/
  | bsError (ha : Admitted s a) (hm : Misses s a) (hr : ReadWillFail s) :
      TranslateTo a s (raiseError .bsError true (bsReadDone s))
  /-- Hard miss whose page fills the victim frame (R204). -/
  | hardMiss (ha : Admitted s a) (hm : Misses s a) (hr : ReadWillSucceed s) :
      TranslateTo a s (complete a .hardMiss (selectVictim s s.total)
        (fillFrame (pageOf a) (selectVictim s s.total) (bsPage s (pageOf a)) (bsReadDone s)))

/-- A TRANSLATE that goes on takes one of the paths. -/
theorem TranslateTo.of_exec {a : Addr} {s t : State} (h : execTranslate a s = .next t) : TranslateTo a s t := by
  rcases execTranslate_cases h with ⟨c, hc, rfl⟩ | ⟨hc, f, hf, rfl⟩ | ⟨hc, hf, f, hp, rfl⟩ | ⟨hc, hf, hp, hs, rfl⟩
  · exact .refused hc
  · exact .tlbHit (admission_eq_none.mp hc) hf
  · exact .softMiss (admission_eq_none.mp hc) hf hp
  · rcases hardMiss_cases a s with ⟨hr, he⟩ | ⟨hr, he⟩ <;> rw [he]
    · exact .bsError (admission_eq_none.mp hc) ⟨hf, hp⟩ ((readWillFail_iff s).mpr ⟨hs, hr⟩)
    · exact .hardMiss (admission_eq_none.mp hc) ⟨hf, hp⟩ ((readWillSucceed_iff s).mpr ⟨hs, hr⟩)

/-- An admitted TRANSLATE takes one of the paths (R200). -/
theorem execTranslate_of_admitted {a : Addr} {s : State} (ha : Admitted s a) : execTranslate a s = resolve a s := by
  simp [execTranslate, admission_eq_none.mpr ha]

/-- A miss in both tables whose port answers is the hard miss (R204). -/
theorem resolve_of_misses {a : Addr} {s : State} (hm : Misses s a) (hs : bsSilent s = false) :
    resolve a s = .next (hardMiss a s) := by
  obtain ⟨hf, hp⟩ := hm
  simp [resolve, tlbLookup, hf, hp, hs]

/-- Each path is what the model's TRANSLATE runs under that path's condition. -/
theorem TranslateTo.exec {a : Addr} {s t : State} (h : TranslateTo a s t) : execTranslate a s = .next t := by
  cases h with
  | refused hc => simp [execTranslate, hc]
  | tlbHit ha hf => simp [execTranslate_of_admitted ha, resolve, tlbLookup, hf]
  | softMiss ha hf hp => simp [execTranslate_of_admitted ha, resolve, tlbLookup, hf, hp]
  | bsError ha hm hr =>
    obtain ⟨hs, hr⟩ := (readWillFail_iff s).mp hr
    simp [execTranslate_of_admitted ha, resolve_of_misses hm hs, Machine.hardMiss, hr]
  | hardMiss ha hm hr =>
    obtain ⟨hs, hr⟩ := (readWillSucceed_iff s).mp hr
    simp [execTranslate_of_admitted ha, resolve_of_misses hm hs, Machine.hardMiss, hr]

/-! ### The cases of a step -/

/-- The error a command word is refused with whatever the state is: a word that does not decode (R252, R253), an INIT
with an operand out of range (R255, R256). -/
def refusalOf : Decoded → Option ErrCode
  | .illegalOpcode => some .illegalOpcode
  | .reservedBits => some .reservedBits
  | .ok (.init n b) =>
    if n.toNat = 0 ∨ 256 < n.toNat then some .badNumFrames
    else if policyOfBits b = none then some .badPolicy else none
  | .ok _ => none

theorem refusalOf_ne_none_code (d : Decoded) : refusalOf d ≠ some .none := by
  unfold refusalOf
  repeat' split
  all_goals simp

/-- The response of a command that only reports: SUMMARY and the probes (R231, R153, R133). -/
def reportOf (s : State) : Instr → Option Response
  | .summary => some (.summary s.errCode s.halted s.err s.policy s.numFrames s.total s.pageFaults s.tlbHits s.tlbMisses)
  | .probePt p => some (.probe p (ptLookup s p))
  | .probeTlb p => some (.probe p (tlbFind s p))
  | .init _ _ => none
  | .translate _ => none

/-- `StepTo s t`: one move of the host leads from `s` to `t`. -/
inductive StepTo (s : State) : State → Prop
  /-- No move: the block waits (R272). -/
  | idle (hs : s.host = []) : StepTo s s
  /-- The host provides the memories for the next run (R292). -/
  | load {bytes : List Host.Cell} {trace : List Addr} {rest : List HostMove} (hs : s.host = .load bytes trace :: rest) :
      StepTo s (loadMemories bytes trace (takeMove rest s))
  /-- The reset input, between commands or during one (R290, R291). -/
  | reset {rest : List HostMove} (hs : s.host = .reset :: rest ∨ ∃ w, s.host = .resetDuring w :: rest) :
      StepTo s (startRun 256 .fifo (takeMove rest s))
  /-- A word refused in every state (R252, R253, R255, R256). -/
  | refused {w : Word} {rest : List HostMove} {c : ErrCode} (hs : s.host = .command w :: rest)
      (hc : refusalOf (decode w) = some c) : StepTo s (raiseError c false (takeMove rest s))
  /-- A successful INIT (R230). -/
  | init {w : Word} {rest : List HostMove} {n : BitVec 9} {b : BitVec 2} {p : Policy}
      (hs : s.host = .command w :: rest) (hd : decode w = .ok (.init n b)) (h1 : 1 ≤ n.toNat) (h2 : n.toNat ≤ 256)
      (hp : policyOfBits b = some p) : StepTo s (respond (.initDone p n) (startRun n p (takeMove rest s)))
  /-- SUMMARY or a probe. -/
  | report {w : Word} {rest : List HostMove} {i : Instr} {r : Response} (hs : s.host = .command w :: rest)
      (hd : decode w = .ok i) (hr : reportOf (takeMove rest s) i = some r) :
      StepTo s (respond r (takeMove rest s))
  /-- TRANSLATE, refused or completed (R200). -/
  | translate {w : Word} {rest : List HostMove} {a : Addr} {t : State} (hs : s.host = .command w :: rest)
      (hd : decode w = .ok (.translate a)) (ht : TranslateTo a (takeMove rest s) t) : StepTo s t

/-- A decoded command is one of the command cases. -/
theorem StepTo.of_exec {s t : State} {w : Word} {rest : List HostMove} {i : Instr} (hs : s.host = .command w :: rest)
    (hd : decode w = .ok i) (h : exec i (takeMove rest s) = .next t) : StepTo s t := by
  cases i with
  | init n b =>
    rcases execInit_cases n b (takeMove rest s) with ⟨hn, he⟩ | ⟨hn, hb, he⟩ | ⟨p, hn, hp, he⟩ <;>
      cases he.symm.trans h
    · exact .refused hs (by simp [hd, refusalOf, hn])
    · exact .refused hs (by simp [hd, refusalOf, hn, hb])
    · exact .init hs hd (by omega) (by omega) hp
  | translate a => exact .translate hs hd (.of_exec h)
  | summary => cases h; exact .report hs hd rfl
  | probePt p => cases h; exact .report hs hd rfl
  | probeTlb p => cases h; exact .report hs hd rfl

/-- A step that goes on is one of the cases. -/
theorem StepTo.of_step {s t : State} (h : step s = .next t) : StepTo s t := by
  rcases step_cases h with ⟨hs, rfl⟩ | ⟨w, rest, i, hs, hd, hx⟩ | ⟨w, rest, c, hs, hc, rfl⟩ | ⟨rest, hs, rfl⟩ |
    ⟨bytes, trace, rest, hs, rfl⟩
  · exact .idle hs
  · exact .of_exec hs hd hx
  · refine .refused hs ?_
    rcases hc with ⟨hd, rfl⟩ | ⟨hd, rfl⟩ <;> rw [hd] <;> rfl
  · exact .reset hs
  · exact .load hs

/-- A word of `refusalOf` is answered with its error in every state. -/
theorem runWord_of_refusalOf {w : Word} {c : ErrCode} (s : State) (hc : refusalOf (decode w) = some c) :
    runWord w s = .next (raiseError c false s) := by
  rcases hd : decode w with i | _ | _
  · rw [hd] at hc
    cases i with
    | init n b =>
      simp only [refusalOf] at hc
      rcases execInit_cases n b s with ⟨hn, he⟩ | ⟨hn, hb, he⟩ | ⟨p, hn, hp, -⟩
      · simp only [hn, if_true, Option.some.injEq] at hc
        simpa [runWord, hd, exec, hc] using he
      · simp only [hn, hb, if_true, if_false, Option.some.injEq] at hc
        simpa [runWord, hd, exec, hc] using he
      · simp [hn, hp] at hc
    | translate a => cases hc
    | summary => cases hc
    | probePt p => cases hc
    | probeTlb p => cases hc
  · simp only [hd, refusalOf, Option.some.injEq] at hc
    simp [runWord, hd, hc]
  · simp only [hd, refusalOf, Option.some.injEq] at hc
    simp [runWord, hd, hc]

/-- A command of `reportOf` only sends its response. -/
theorem exec_of_reportOf {s : State} {i : Instr} {r : Response} (hr : reportOf s i = some r) :
    exec i s = .next (respond r s) := by
  cases i <;> simp only [reportOf, Option.some.injEq, reduceCtorEq] at hr <;> subst hr <;> rfl

/-- Each case is what the model's step runs under that case's condition. -/
theorem StepTo.step {s t : State} (h : StepTo s t) : step s = .next t := by
  cases h with
  | idle hs => simp [Machine.step, runMove, hs]
  | load hs => simp [Machine.step, runMove, hs]
  | reset hs => rcases hs with hs | ⟨w, hs⟩ <;> simp [Machine.step, runMove, hs, resetInput]
  | refused hs hc => rw [step_command hs, runWord_of_refusalOf _ hc]
  | init hs hd h1 h2 hp =>
    rw [step_command hs, runWord, hd]
    simp [exec, execInit, hp]
    omega
  | report hs hd hr =>
    rw [step_command hs, runWord, hd]
    exact exec_of_reportOf hr
  | translate hs hd ht =>
    rw [step_command hs, runWord, hd]
    exact ht.exec

end Sys2Proof.Machine
end

section
/-!
SUPPORT. The sound states of 10_state.md: every step keeps them (R41 to R49, R75), and from them the draw of the frame
store cannot be observed (R31).
-/

namespace Sys2Proof.Machine

/-! ### The victim of a sound state -/

/-- Once FULL every frame below NUM_FRAMES is occupied (R46). -/
theorem occupied_of_full {s : State} {f : Frame} (h : Inv s) (hfull : s.filled = s.numFrames)
    (hlt : f.toNat < s.numFrames.toNat) : (ownerOf s f).isSome = true :=
  (h.fill.occupied_iff f).mpr (hfull ▸ hlt)

/-- The head of LRUQ is an occupied frame once FULL (R47). -/
theorem occupied_lruHead {s : State} (h : Inv s) (hfull : s.filled = s.numFrames) :
    (ownerOf s (lruHead s)).isSome = true := by
  have h0 : (0 : Frame) ∈ s.lruq := (h.lru.mem_iff 0).mpr (occupied_of_full h hfull h.ranges.frames_pos)
  obtain ⟨f, hf⟩ := Option.isSome_iff_exists.mp (List.isSome_head?.mpr (List.ne_nil_of_mem h0))
  have hm : f ∈ s.lruq := List.mem_of_head? hf
  simpa [lruHead, hf] using (h.lru.mem_iff f).mp hm

/-- The OPT scan answers a frame of the configuration (R175). -/
theorem selectOpt_lt {s : State} (h : RangesOk s) (pos : Nat) : (selectOpt s pos).toNat < s.numFrames.toNat := by
  have hlt := foldl_fartherFrame_lt s pos (List.range s.numFrames.toNat) 0 _ h.frames_pos fun _ => List.mem_range.mp
  rw [selectOpt, BitVec.toNat_ofNat]
  exact lt_of_le_of_lt (Nat.mod_le _ _) hlt

/-- While not FULL every policy takes the frame CURSOR names (R170). -/
theorem selectVictim_of_not_full {s : State} (pos : Nat) (h : isFull s = false) : selectVictim s pos = s.cursor := by
  rcases hp : s.policy <;> simp [selectVictim, hp, h]

/-- The victim is a frame of the configuration (R178). -/
theorem selectVictim_lt {s : State} (h : Inv s) (pos : Nat) : (selectVictim s pos).toNat < s.numFrames.toNat := by
  rcases hfull : isFull s with _ | _
  · rw [selectVictim_of_not_full pos hfull]
    exact h.ranges.cursor_lt
  · have hlru := (h.fill.occupied_iff _).mp (occupied_lruHead h ((isFull_iff s).mp hfull))
    rcases hp : s.policy <;> simp only [selectVictim, hp, hfull, if_true]
    · exact h.ranges.cursor_lt
    · exact lt_of_lt_of_le hlru h.ranges.filled_le
    · exact selectOpt_lt h.ranges pos

/-- The victim is EMPTY exactly while not FULL (R178, R46). -/
theorem ownerOf_selectVictim_eq_none_iff {s : State} (h : Inv s) (pos : Nat) :
    ownerOf s (selectVictim s pos) = none ↔ s.filled ≠ s.numFrames := by
  constructor
  · intro hnone hfull
    have := occupied_of_full h hfull (selectVictim_lt h pos)
    simp [hnone] at this
  · intro hfull
    have hb : isFull s = false := by simpa [isFull] using hfull
    have hocc := h.fill.occupied_iff s.cursor
    rw [h.fill.cursor_eq hb] at hocc
    rw [selectVictim_of_not_full pos hb]
    simpa using hocc

/-! ### Every step keeps the sound states -/

/-- Whatever path it takes, TRANSLATE keeps a sound state sound. -/
theorem inv_translateTo {a : Addr} {s t : State} (h : Inv s) (ht : TranslateTo a s t) : Inv t := by
  cases ht with
  | refused hc =>
    exact inv_of_status h (statusOk_raiseError (fun hn => admission_ne_none_code (hn ▸ hc)) false h.status) rfl
  | tlbHit ha hf => exact inv_tlbHit h ha hf
  | softMiss ha hf hp => exact inv_softMiss h ha hf hp
  | bsError =>
    have hs : StatusOk (bsReadDone s) := ⟨h.status.code_iff, h.status.halted_err⟩
    exact inv_of_status h (statusOk_raiseError (by decide) true hs) rfl
  | hardMiss ha hm =>
    exact inv_hardMiss h ha hm (selectVictim_lt h _) (ownerOf_selectVictim_eq_none_iff h _)
      (selectVictim_of_not_full _)

/-- Settles O16, by the cases of a step. -/
theorem stepKeepsSoundStates : Obligations.StepKeepsSoundStates := by
  intro s t h hst
  cases StepTo.of_step hst with
  | idle => exact h
  | load => exact inv_loadMemories _ _ (inv_takeMove _ h)
  | reset => exact inv_startRun .fifo (by decide) (by decide) h.ranges.width_pos h.ranges.width_le h.memory.bs_wf
  | @refused w rest c hs hc =>
    have hu := inv_takeMove rest h
    exact inv_of_status hu (statusOk_raiseError (fun hn => refusalOf_ne_none_code _ (hn ▸ hc)) false hu.status) rfl
  | @init w rest n b p hs hd h1 h2 hp =>
    have hi := inv_startRun (s := takeMove rest s) p h1 h2 h.ranges.width_pos h.ranges.width_le h.memory.bs_wf
    exact inv_of_status hi ⟨hi.status.code_iff, hi.status.halted_err⟩ rfl
  | report => exact inv_of_status h ⟨h.status.code_iff, h.status.halted_err⟩ rfl
  | translate hs hd ht => exact inv_translateTo (inv_takeMove _ h) ht

/-! ### The draw of the frame store -/

/-- The state with another draw FRAME_INIT in force (R31). -/
def withDraw (d : Nat) (s : State) : State := { s with fsDraw := d }

theorem ptUnmap_withDraw (p : Page) (d : Nat) (s : State) : ptUnmap p (withDraw d s) = withDraw d (ptUnmap p s) := by
  rcases h : ptLookup s p with _ | f <;>
    simp only [ptUnmap, show ptLookup (withDraw d s) p = ptLookup s p from rfl, h] <;> rfl

theorem ptMap_withDraw (p : Page) (f : Frame) (d : Nat) (s : State) :
    ptMap p f (withDraw d s) = withDraw d (ptMap p f s) := by
  rcases h : ownerOf s f with _ | q <;>
    simp only [ptMap, show ownerOf (withDraw d s) f = ownerOf s f from rfl, h, ptUnmap_withDraw]
  · rfl
  · split <;> rfl

theorem evict_withDraw (f : Frame) (d : Nat) (s : State) : evict f (withDraw d s) = withDraw d (evict f s) := by
  rcases h : ownerOf s f with _ | q <;>
    simp only [evict, show ownerOf (withDraw d s) f = ownerOf s f from rfl, h, ptUnmap_withDraw] <;> rfl

theorem fillFrame_withDraw (p : Page) (f : Frame) (data : List Byte) (d : Nat) (s : State) :
    fillFrame p f data (withDraw d s) = withDraw d (fillFrame p f data s) := by
  have hi : ∀ u, installPage f data (withDraw d u) = withDraw d (installPage f data u) := fun _ => rfl
  rw [fillFrame, evict_withDraw, hi, ptMap_withDraw]
  rfl

/-- COMPLETE looks at the draw through the content of the frame only (R206). -/
theorem complete_withDraw {a : Addr} {o : Path} {f : Frame} {d : Nat} {s : State}
    (h : frameContent (withDraw d s) f = frameContent s f) :
    complete a o f (withDraw d s) = withDraw d (complete a o f s) := by
  simp only [complete, h]
  rfl

/-- A resident frame holds written bytes only, so its content does not depend on the draw (R75). -/
theorem frameContent_withDraw {s : State} {p : Page} {f : Frame} (h : FramesMatchStore s) (hp : ptLookup s p = some f)
    (d : Nat) : frameContent (withDraw d s) f = frameContent s f := by
  refine List.map_congr_left fun k hk => ?_
  have hread := h p f hp k (List.mem_range.mp hk)
  simp [fsByte, withDraw, hread]

/-- TRANSLATE takes the same path under another draw. -/
theorem translateTo_withDraw {a : Addr} {s t : State} (d : Nat) (h : Inv s) (ht : TranslateTo a s t) :
    TranslateTo a (withDraw d s) (withDraw d t) := by
  cases ht with
  | refused hc => exact .refused (s := withDraw d s) hc
  | tlbHit ha hf =>
    have hp := h.tlb.agrees _ (lookup_some_mem hf)
    rw [← complete_withDraw]
    · exact .tlbHit (s := withDraw d s) ha hf
    · exact frameContent_withDraw (s := tlbPromote _ _ s) h.frames hp d
  | softMiss ha hf hp =>
    rw [← complete_withDraw]
    · exact .softMiss (s := withDraw d s) ha hf hp
    · exact frameContent_withDraw (s := tlbInsert _ _ s) h.frames hp d
  | bsError ha hm hr => exact .bsError (s := withDraw d s) ha hm hr
  | hardMiss ha hm hr =>
    rw [← complete_withDraw]
    · rw [← fillFrame_withDraw]
      exact .hardMiss (s := withDraw d s) ha hm hr
    · have hfs := fillFrame_fs (pageOf a) (selectVictim s s.total) (bsPage s (pageOf a)) (bsReadDone s)
      exact (frameContent_of_write s (withDraw d _) _ _ (length_bsPage s _) hfs).trans
        (frameContent_of_write s _ _ _ (length_bsPage s _) hfs).symm

/-- Settles O58, by the cases of a step: under another draw the same case is taken, and leads to the same state but
for the draw. -/
theorem frameInitUnobservable : Obligations.FrameInitUnobservable := by
  intro s t d h hst
  suffices ∃ n, StepTo (withDraw d s) (withDraw n t) from
    this.elim fun n hn => ⟨withDraw n t, hn.step, rfl⟩
  cases StepTo.of_step hst with
  | idle hs => exact ⟨d, .idle (s := withDraw d s) hs⟩
  | load hs => exact ⟨d, .load (s := withDraw d s) hs⟩
  | reset hs => exact ⟨d + 1, .reset (s := withDraw d s) hs⟩
  | refused hs hc => exact ⟨d, .refused (s := withDraw d s) hs hc⟩
  | init hs hd h1 h2 hp => exact ⟨d + 1, .init (s := withDraw d s) hs hd h1 h2 hp⟩
  | @report w rest i r hs hd hr =>
    have hr' : reportOf (takeMove rest (withDraw d s)) i = some r := by cases i <;> exact hr
    exact ⟨d, .report (s := withDraw d s) hs hd hr'⟩
  | translate hs hd ht =>
    exact ⟨d, .translate (s := withDraw d s) hs hd (translateTo_withDraw d (inv_takeMove _ h) ht)⟩

end Sys2Proof.Machine
end

section
/-!
SUPPORT. What single registers keep along every step, from any state in which they have it: the TLB's shape (R41), the
counters (R48), the status (R24), the memories (R31, R64), and within a run the configuration (R21, R22), TOTAL (R26),
HALTED (R23) and the occupied frames (R46). Before them the reset values (R50), after them the frame of TRANSLATE (R40).
-/

namespace Sys2Proof.Machine

/-! ### Reset -/

/-- Settles O14: the values are those the reset state is written with. -/
theorem resetValues : Obligations.ResetValues :=
  ⟨rfl, rfl, rfl, rfl, rfl, rfl, rfl, rfl, rfl, rfl, by simp [ptLookup, State.reset], by simp [ownerOf, State.reset],
    rfl, rfl, rfl, fun _ => rfl⟩

/-- Settles O9: the step is the start of a run, whose every field is that of `freshRun`. -/
theorem resetInputResets : Obligations.ResetInputResets :=
  fun _ _ hs => (StepTo.reset (.inl hs)).step

/-- Settles O15: reset is the start of a run of INIT 256, FIFO but for the draw and the trace (R290), which the
invariant does not look at. -/
theorem resetIsSound : Obligations.ResetIsSound := by
  have hrun : Inv (startRun 256 .fifo State.reset) :=
    inv_startRun .fifo (by decide) (by decide) (by decide) (by decide) List.Pairwise.nil
  exact inv_of_status hrun ⟨by simp [State.reset], by simp [State.reset]⟩ rfl

/-! ### Steps that start a run -/

theorem startsRun_of_reset {s : State} {rest : List HostMove}
    (hs : s.host = .reset :: rest ∨ ∃ w, s.host = .resetDuring w :: rest) : StartsRun s :=
  hs.elim (fun h => .inl ⟨rest, h⟩) fun ⟨w, h⟩ => .inr (.inl ⟨w, rest, h⟩)

theorem startsRun_of_init {s : State} {w : Word} {rest : List HostMove} {n : BitVec 9} {b : BitVec 2} {p : Policy}
    (hs : s.host = .command w :: rest) (hd : decode w = .ok (.init n b)) (h1 : 1 ≤ n.toNat) (h2 : n.toNat ≤ 256)
    (hp : policyOfBits b = some p) : StartsRun s := by
  refine (startsRun_command_iff hs).mpr ⟨n, b, hd, h1, h2, ?_⟩
  by_contra hb
  simp [(policyOfBits_eq_none_iff b).mpr hb] at hp

/-! ### The TLB's shape -/

/-- R41 of a sequence of pairs. -/
def TlbShape (q : List (Page × Frame)) : Prop := q.length ≤ 16 ∧ (q.map Prod.fst).Nodup

theorem TlbShape.sublist {q r : List (Page × Frame)} (h : TlbShape r) (hq : q.Sublist r) : TlbShape q :=
  ⟨le_trans hq.length_le h.1, List.Nodup.sublist (hq.map Prod.fst) h.2⟩

/-- The eviction takes at most a pair out of the TLB (R204). -/
theorem evict_tlbq_sublist (f : Frame) (s : State) : (evict f s).tlbq.Sublist s.tlbq := by
  rw [tlbq_evict]
  split
  · exact List.filter_sublist
  · exact List.Sublist.refl _

/-- PT_map takes at most a pair out of the TLB (R151). -/
theorem ptMap_tlbq_sublist (p : Page) (f : Frame) (s : State) : (ptMap p f s).tlbq.Sublist s.tlbq := by
  unfold ptMap
  split
  · next q hq =>
    split
    · rw [setOwner_tlbq, setPt_tlbq, tlbInvalidate_tlbq, ptUnmap_tlbq]
      exact List.filter_sublist
    · exact List.Sublist.refl _
  · exact List.Sublist.refl _

/-- A fill keeps the TLB's shape: pairs go, then the new page is inserted (R204). -/
theorem tlbShape_fillFrame {s : State} (p : Page) (f : Frame) (data : List Byte) (h : TlbShape s.tlbq) :
    TlbShape (fillFrame p f data s).tlbq := by
  have hsub : (ptMap p f (installPage f data (evict f s))).tlbq.Sublist s.tlbq :=
    (ptMap_tlbq_sublist p f _).trans (evict_tlbq_sublist f s)
  exact (insertPair_shape p f (h.sublist hsub).2 (h.sublist hsub).1).symm

theorem tlbShape_translateTo {a : Addr} {s t : State} (h : TlbShape s.tlbq) (ht : TranslateTo a s t) :
    TlbShape t.tlbq := by
  cases ht with
  | refused => exact h
  | tlbHit ha hf =>
    obtain ⟨hnodup, hlen⟩ := promote_shape h.2 hf
    exact ⟨le_trans hlen h.1, hnodup⟩
  | softMiss => exact (insertPair_shape _ _ h.2 h.1).symm
  | bsError => exact h
  | hardMiss =>
    rw [complete_tlbq]
    exact tlbShape_fillFrame _ _ _ h

/-- Settles O17: only TRANSLATE and the start of a run write TLBQ. -/
theorem stepKeepsTlbShape : Obligations.StepKeepsTlbShape := by
  intro s t hlen hnodup hst
  show TlbShape t.tlbq
  cases StepTo.of_step hst with
  | reset => exact ⟨by simp, by simp⟩
  | init => exact ⟨by simp, by simp⟩
  | @translate w rest a _ hs hd ht => exact tlbShape_translateTo (s := takeMove rest s) ⟨hlen, hnodup⟩ ht
  | idle | load | refused | report => exact ⟨hlen, hnodup⟩

/-! ### The counters -/

/-- A fill counts at most one frame (R177). -/
theorem filled_fillFrame_le (p : Page) (f : Frame) (data : List Byte) (s : State) :
    (fillFrame p f data s).filled.toNat ≤ s.filled.toNat + 1 := by
  have hfil : (fillFrame p f data s).filled = (evict f s).filled := by simp [fillFrame]
  rw [hfil, filled_evict]
  split
  · omega
  · rw [BitVec.toNat_add]
    exact Nat.mod_le _ _

theorem countersOk_translateTo {a : Addr} {s t : State} (h : CountersOk s) (ht : TranslateTo a s t) : CountersOk t := by
  obtain ⟨htotal, hfaults, hfilled⟩ := h
  cases ht with
  | refused => exact ⟨htotal, hfaults, hfilled⟩
  | tlbHit => exact ⟨by simp; omega, by simpa using hfaults, by simpa using hfilled⟩
  | softMiss => exact ⟨by simp; omega, by simp; omega, by simpa using hfilled⟩
  | bsError => exact ⟨htotal, hfaults, hfilled⟩
  | hardMiss =>
    have hle := filled_fillFrame_le (pageOf a) (selectVictim s s.total) (bsPage s (pageOf a)) (bsReadDone s)
    rw [bsReadDone_filled] at hle
    exact ⟨by simp; omega, by simp; omega, by simp; omega⟩

/-- Settles O18: only TRANSLATE counts, and the start of a run clears the counters. -/
theorem stepKeepsCounterRelations : Obligations.StepKeepsCounterRelations := by
  intro s t h hst
  have hu : ∀ rest, CountersOk (takeMove rest s) := fun _ => ⟨h.total_eq, h.faults_le, h.filled_le⟩
  cases StepTo.of_step hst with
  | reset => exact ⟨rfl, le_rfl, le_rfl⟩
  | init => exact ⟨rfl, le_rfl, le_rfl⟩
  | translate hs hd ht => exact countersOk_translateTo (hu _) ht
  | idle | load | refused | report => exact ⟨h.total_eq, h.faults_le, h.filled_le⟩

/-! ### The status -/

theorem statusOk_translateTo {a : Addr} {s t : State} (h : StatusOk s) (ht : TranslateTo a s t) : StatusOk t := by
  cases ht with
  | refused hc => exact statusOk_raiseError (fun hn => admission_ne_none_code (hn ▸ hc)) false h
  | bsError => exact statusOk_raiseError (s := bsReadDone s) (by decide) true ⟨h.code_iff, h.halted_err⟩
  | tlbHit | softMiss | hardMiss => exact ⟨by simpa using h.code_iff, by simpa using h.halted_err⟩

/-- Settles O19: ERR and ERRCODE are written by an error, which has a code, and by the start of a run, which clears
both. -/
theorem stepKeepsStatusConsistent : Obligations.StepKeepsStatusConsistent := by
  intro s t h hst
  have hu : ∀ rest, StatusOk (takeMove rest s) := fun _ => ⟨h.code_iff, h.halted_err⟩
  cases StepTo.of_step hst with
  | reset => exact ⟨by simp, by simp⟩
  | refused hs hc => exact statusOk_raiseError (fun hn => refusalOf_ne_none_code _ (hn ▸ hc)) false (hu _)
  | init => exact ⟨by simp, by simp⟩
  | translate hs hd ht => exact statusOk_translateTo (hu _) ht
  | idle | load | report => exact ⟨h.code_iff, h.halted_err⟩

/-- Settles O51: an error keeps a code that is there (R262); the other steps of a run do not write it. -/
theorem firstErrorCodeKept : Obligations.FirstErrorCodeKept := by
  intro s t herr hst
  cases StepTo.of_step hst with
  | reset hs => exact .inr ⟨startsRun_of_reset hs, rfl, rfl⟩
  | refused => exact .inl ⟨rfl, by simp [herr]⟩
  | init hs hd h1 h2 hp => exact .inr ⟨startsRun_of_init hs hd h1 h2 hp, rfl, rfl⟩
  | translate hs hd ht =>
    left
    cases ht with
    | refused => exact ⟨rfl, by simp [herr]⟩
    | bsError => exact ⟨rfl, by simp [herr]⟩
    | tlbHit | softMiss | hardMiss => simpa using herr
  | idle | load | report => exact .inl ⟨herr, rfl⟩

/-- TRANSLATE leaves HALTED as it is, or its read failed and it answers BS_ERROR (R261). -/
theorem halted_translateTo {a : Addr} {s t : State} (ht : TranslateTo a s t) :
    t.halted = s.halted ∨ (ReadWillFail s ∧ t.halted = true ∧ t.sent = s.sent ++ [[0xF9000000]]) := by
  cases ht with
  | bsError ha hm hr => exact .inr ⟨hr, by simp, rfl⟩
  | refused | tlbHit | softMiss | hardMiss => exact .inl (by simp)

/-- A step leaves HALTED as it is, or starts a run that clears it, or is a TRANSLATE that answers BS_ERROR (R23). -/
theorem halted_step {s t : State} (hst : step s = .next t) :
    t.halted = s.halted ∨ (StartsRun s ∧ t.halted = false) ∨
      (t.halted = true ∧ (∃ w rest a, s.host = .command w :: rest ∧ decode w = .ok (.translate a) ∧ ReadWillFail s) ∧
        t.sent = s.sent ++ [[0xF9000000]]) := by
  cases StepTo.of_step hst with
  | reset hs => exact .inr (.inl ⟨startsRun_of_reset hs, rfl⟩)
  | refused => exact .inl (by simp)
  | init hs hd h1 h2 hp => exact .inr (.inl ⟨startsRun_of_init hs hd h1 h2 hp, rfl⟩)
  | @translate w rest a _ hs hd ht =>
    rcases halted_translateTo ht with h | ⟨hr, h, hsent⟩
    · exact .inl h
    · exact .inr (.inr ⟨h, ⟨w, rest, a, hs, hd, hr⟩, hsent⟩)
  | idle | load | report => exact .inl rfl

/-- Settles O52: of the steps that write HALTED only the start of a run clears it. -/
theorem haltedLeftOnlyByNewRun : Obligations.HaltedLeftOnlyByNewRun := by
  intro s t hhalted hst
  rcases halted_step hst with h | ⟨hr, -⟩ | ⟨h, -⟩
  · exact .inl (h.trans hhalted)
  · exact .inr hr
  · exact .inl h

/-- Settles O53: of the steps that write HALTED only the TRANSLATE whose read failed sets it. -/
theorem haltedEnteredOnlyByBsError : Obligations.HaltedEnteredOnlyByBsError := by
  intro s t hrunning hst hhalted
  rcases halted_step hst with h | ⟨-, h⟩ | ⟨-, h⟩
  · simp [h, hrunning] at hhalted
  · simp [h] at hhalted
  · exact h

/-! ### The byte memories -/

theorem memoriesWf_translateTo {a : Addr} {s t : State} (hfs : s.fs.wf) (hbs : s.bs.wf) (ht : TranslateTo a s t) :
    t.fs.wf ∧ t.bs.wf := by
  cases ht with
  | hardMiss => exact ⟨by simpa using Memory.write_wf _ _ _ hfs, by simpa using hbs⟩
  | refused | tlbHit | softMiss | bsError => exact ⟨by simpa using hfs, by simpa using hbs⟩

/-- Settles O20: FS is written by a fill only, and a run starts with FS empty and BS as the host has filled it. -/
theorem stepKeepsMemoriesCanonical : Obligations.StepKeepsMemoriesCanonical := by
  intro s t hfs hbs hst
  cases StepTo.of_step hst with
  | reset => exact ⟨List.Pairwise.nil, nextBs_wf (s := takeMove _ s) hbs⟩
  | init => exact ⟨List.Pairwise.nil, nextBs_wf (s := takeMove _ s) hbs⟩
  | @translate w rest a _ hs hd ht => exact memoriesWf_translateTo (s := takeMove rest s) hfs hbs ht
  | idle | load | refused | report => exact ⟨hfs, hbs⟩

/-! ### TOTAL, the configuration, the occupied frames -/

theorem total_translateTo {a : Addr} {s t : State} (ht : TranslateTo a s t) :
    t.total = s.total ∨ t.total = s.total + 1 := by
  cases ht with
  | refused | bsError => exact .inl rfl
  | tlbHit | softMiss => exact .inr rfl
  | hardMiss => exact .inr (by simp)

/-- Settles O54: only a completed TRANSLATE counts, and only the start of a run clears TOTAL. -/
theorem totalAdvancesByOne : Obligations.TotalAdvancesByOne := by
  intro s t hst
  cases StepTo.of_step hst with
  | reset hs => exact .inr (.inl ⟨startsRun_of_reset hs, rfl⟩)
  | init hs hd h1 h2 hp => exact .inr (.inl ⟨startsRun_of_init hs hd h1 h2 hp, rfl⟩)
  | @translate w rest a _ hs hd ht =>
    rcases total_translateTo ht with h | h
    · exact .inl h
    · exact .inr (.inr ⟨h, w, rest, a, hs, hd⟩)
  | idle | load | refused | report => exact .inl rfl

theorem configuration_translateTo {a : Addr} {s t : State} (ht : TranslateTo a s t) :
    t.numFrames = s.numFrames ∧ t.policy = s.policy := by
  cases ht <;> simp

/-- Settles O55: of the cases of a step only the two that start a run write the configuration. -/
theorem configurationFixedInRun : Obligations.ConfigurationFixedInRun := by
  intro s t hst hr
  cases StepTo.of_step hst with
  | reset hs => exact absurd (startsRun_of_reset hs) hr
  | init hs hd h1 h2 hp => exact absurd (startsRun_of_init hs hd h1 h2 hp) hr
  | @translate w rest a _ hs hd ht => exact configuration_translateTo (s := takeMove rest s) ht
  | idle | load | refused | report => exact ⟨rfl, rfl⟩

/-- TRANSLATE empties no frame: the victim it evicts it fills again (R204). -/
theorem occupied_translateTo {a : Addr} {s t : State} (hP : PageTableOk s) (ht : TranslateTo a s t) {f : Frame}
    (hf : ownerOf s f ≠ none) : ownerOf t f ≠ none := by
  cases ht with
  | hardMiss =>
    have hagree : ∀ q, ownerOf (bsReadDone s) (selectVictim s s.total) = some q →
        ptLookup (bsReadDone s) q = some (selectVictim s s.total) := fun q => (hP.inverse _ q).mp
    rw [ownerOf_congr (complete_owner _ _ _ _), ownerOf_fillFrame _ _ hagree]
    split
    · simp
    · exact hf
  | refused | tlbHit | softMiss | bsError => exact hf

/-- Settles O56: OWNER is written by the start of a run and by a fill, which leaves the victim occupied. -/
theorem framesNeverFreedInRun : Obligations.FramesNeverFreedInRun := by
  intro s t f h hst hr hf
  cases StepTo.of_step hst with
  | reset hs => exact absurd (startsRun_of_reset hs) hr
  | init hs hd h1 h2 hp => exact absurd (startsRun_of_init hs hd h1 h2 hp) hr
  | translate hs hd ht => exact occupied_translateTo (inv_takeMove _ h).pageTable ht hf
  | idle | load | refused | report => exact hf

/-! ### TRANSLATE -/

/-- Settles O35: the hit counts neither, the hard miss both, and a soft miss would find a mapped page that the TLB of at
most 16 frames does not hold (R49). -/
theorem noSoftMissWithFewFrames : Obligations.NoSoftMissWithFewFrames := by
  intro s t a h hn hx
  cases TranslateTo.of_exec hx with
  | softMiss ha hf hp =>
    have hsmall := h.smallTlb hn (pageOf a)
    simp [hf, hp] at hsmall
  | hardMiss => simp; omega
  | refused | tlbHit | bsError => rfl

/-- A fill writes the 256 bytes of its frame only (R204, R63). -/
theorem fsByte_fillFrame_outside (p q : Page) (f : Frame) (s : State) {x : Nat}
    (hx : x < f.toNat * 256 ∨ f.toNat * 256 + 256 ≤ x) : fsByte (fillFrame p f (bsPage s q) s) x = fsByte s x := by
  have hinstall : fsByte (fillFrame p f (bsPage s q) s) x = fsByte (installPage f (bsPage s q) s) x :=
    fsByte_congr (by simp) (by simp) x
  rw [hinstall, fsByte_installPage _ _ _ _ (length_bsPage s q), frameBase, if_neg (by omega)]

/-- Settles O32: the hard miss is the one path that changes PAGE_FAULTS and the page table, and it writes the victim's
bytes only. -/
theorem translateFrame : Obligations.TranslateFrame := by
  intro s t a hx
  cases TranslateTo.of_exec hx with
  | hardMiss =>
    refine ⟨by simp, by simp, by simp, by simp, by simp, by simp, by simp, by simp, fun hp => by simp at hp,
      fun _ x hx => ?_⟩
    rw [fsByte_congr (complete_fs _ _ _ _) (complete_fsDraw _ _ _ _)]
    exact fsByte_fillFrame_outside _ _ _ (bsReadDone s) hx
  | refused | tlbHit | softMiss | bsError => simp [fsByte]

end Sys2Proof.Machine
end

section
/-!
SUPPORT. The external memories as the commands see them: what a completed TRANSLATE returns of the backing store (R75,
R205, R206), and that no command writes BS, TRACE or CNT_WIDTH (R9, R64, R66).
-/

namespace Sys2Proof.Machine

/-! ### What TRANSLATE returns -/

/-- The byte at an address is the byte at its offset in its page (R120, R65). -/
theorem getD_bsPage_offsetOf (s : State) (a : Addr) :
    (bsPage s (pageOf a)).getD (offsetOf a).toNat 0 = bsByte s a.toNat := by
  have haddr : (pageOf a).toNat * 256 + (offsetOf a).toNat = a.toNat := by
    simp only [pageOf, offsetOf, toNat_field]
    omega
  have hlt : (offsetOf a).toNat < 256 := (offsetOf a).isLt
  simp [bsPage, hlt, haddr]

/-- The content of a resident frame is the backing store's page (R75). -/
theorem frameContent_eq_bsPage {s : State} {p : Page} {f : Frame} (h : FramesMatchStore s)
    (hp : ptLookup s p = some f) : frameContent s f = bsPage s p := by
  refine List.map_congr_left fun k hk => ?_
  simp [fsByte, h p f hp k (List.mem_range.mp hk)]

/-- A TRANSLATE that counts ends in COMPLETE for the frame of its page, on each of its three paths (R201). -/
theorem complete_of_translateTo {a : Addr} {s t : State} (h : TlbOk s) (ht : TranslateTo a s t)
    (hcount : t.total = s.total + 1) :
    ∃ o f u, t = complete a o f u ∧ ptLookup u (pageOf a) = some f ∧ u.sent = s.sent ∧ u.bs = s.bs := by
  cases ht with
  | refused | bsError => simp at hcount
  | tlbHit ha hf => exact ⟨_, _, _, rfl, h.agrees _ (lookup_some_mem hf), rfl, rfl⟩
  | softMiss ha hf hp => exact ⟨_, _, _, rfl, hp, rfl, rfl⟩
  | hardMiss => exact ⟨_, _, _, rfl, (fillFrame_maps _ _ _ _).1, by simp, by simp⟩

/-- Settles O33: the record holds the frame's content in the state after the command, which is sound, so the content is
the store's page. -/
theorem translateReturnsStoreBytes : Obligations.TranslateReturnsStoreBytes := by
  intro s t a h hx hcount
  have ht := TranslateTo.of_exec hx
  obtain ⟨o, f, u, rfl, hp, hsent, hbs⟩ := complete_of_translateTo h.tlb ht hcount
  have hframes : FramesMatchStore u := (inv_translateTo h ht).frames
  have hcontent : frameContent u f = bsPage s (pageOf a) :=
    (frameContent_eq_bsPage hframes hp).trans (bsPage_congr hbs _)
  refine ⟨o, f, hp, ?_⟩
  rw [complete_sent, hcontent, getD_bsPage_offsetOf, hsent]

/-! ### What the commands leave -/

/-- A command word other than a legal INIT leaves the world outside, whether it decodes or not. -/
theorem outsideKept_runWord {w : Word} {s t : State} (h : runWord w s = .next t) (hw : ¬ IsLegalInit w) :
    OutsideKept s t := by
  unfold runWord at h
  split at h
  · next hd => exact outsideKept_exec hd hw h
  · cases h; exact outsideKept_raiseError _ _ s
  · cases h; exact outsideKept_raiseError _ _ s

/-- Settles O57: a legal INIT starts a run, which takes the filling; every other word leaves the world outside. -/
theorem commandsNeverWriteExternalMemories : Obligations.CommandsNeverWriteExternalMemories := by
  intro s t w rest hs h
  rw [step_command hs] at h
  by_cases hw : IsLegalInit w
  · obtain ⟨n, p, -, -, hrun⟩ := runWord_of_isLegalInit (takeMove rest s) hw
    cases hrun.symm.trans h
    refine ⟨rfl, fun hkeep => ?_, fun f _ hf => ?_⟩
    · have hf : s.nextFill = none := hkeep.resolve_left (not_not_intro hw)
      simp [nextBs, nextTrace, hf]
    · simp [nextBs, nextTrace, hf]
  · obtain ⟨hbs, htrace, hfill, hwidth⟩ := outsideKept_runWord h hw
    exact ⟨hwidth, fun _ => ⟨hbs, htrace, hfill⟩, fun _ hlegal => absurd hlegal hw⟩

end Sys2Proof.Machine
end

section
/-!
SUPPORT. The encoding of 30_encoding.md: the decoder by the value of OP (R97), its inverse, the encoder (R92 to R96),
the assembler's range checks (R107, R108), and the words of the responses (R100, R101, R106).
-/

namespace Sys2Proof

/-! ### The reserved-bit test -/

theorem reservedBits_eq_zero_iff (w : Word) (lo width : Nat) :
    w.extractLsb' lo width = 0 ↔ w.toNat / 2 ^ lo % 2 ^ width = 0 := by
  rw [← toNat_field, ← BitVec.toNat_inj]
  simp

theorem unlessReserved_eq_ok_iff (w : Word) (lo width : Nat) (i j : Instr) :
    unlessReserved w lo width i = .ok j ↔ w.toNat / 2 ^ lo % 2 ^ width = 0 ∧ i = j := by
  rw [← reservedBits_eq_zero_iff, unlessReserved]
  split <;> simp_all

theorem unlessReserved_eq_reservedBits_iff (w : Word) (lo width : Nat) (i : Instr) :
    unlessReserved w lo width i = .reservedBits ↔ w.toNat / 2 ^ lo % 2 ^ width ≠ 0 := by
  rw [ne_eq, ← reservedBits_eq_zero_iff, unlessReserved]
  split <;> simp_all

theorem unlessReserved_ne_illegalOpcode (w : Word) (lo width : Nat) (i : Instr) :
    unlessReserved w lo width i ≠ .illegalOpcode := by
  unfold unlessReserved
  split <;> simp

/-! ### The decoder by the value of OP (R97) -/

theorem decode_of_op_init {w : Word} (h : w.toNat / 2 ^ 28 = 1) :
    decode w = unlessReserved w 11 17 (.init (w.extractLsb' 0 9) (w.extractLsb' 9 2)) := by
  simp [decode, (opField_eq_iff w 1).mpr h]

theorem decode_of_op_translate {w : Word} (h : w.toNat / 2 ^ 28 = 2) :
    decode w = unlessReserved w 16 12 (.translate (w.extractLsb' 0 16)) := by
  simp [decode, (opField_eq_iff w 2).mpr h]

theorem decode_of_op_summary {w : Word} (h : w.toNat / 2 ^ 28 = 3) :
    decode w = unlessReserved w 0 28 .summary := by
  simp [decode, (opField_eq_iff w 3).mpr h]

theorem decode_of_op_probePt {w : Word} (h : w.toNat / 2 ^ 28 = 4) :
    decode w = unlessReserved w 8 20 (.probePt (w.extractLsb' 0 8)) := by
  simp [decode, (opField_eq_iff w 4).mpr h]

theorem decode_of_op_probeTlb {w : Word} (h : w.toNat / 2 ^ 28 = 5) :
    decode w = unlessReserved w 8 20 (.probeTlb (w.extractLsb' 0 8)) := by
  simp [decode, (opField_eq_iff w 5).mpr h]

theorem decode_of_op_illegal {w : Word} (h : w.toNat / 2 ^ 28 = 0 ∨ 6 ≤ w.toNat / 2 ^ 28) :
    decode w = .illegalOpcode := by
  have hne : ∀ op : BitVec 4, 1 ≤ op.toNat → op.toNat ≤ 5 → opField w ≠ op := fun op _ _ => by
    rw [ne_eq, opField_eq_iff]
    omega
  simp [decode, hne]

/-- OP names one of the five commands, or none (R91). -/
theorem op_cases (w : Word) :
    w.toNat / 2 ^ 28 = 1 ∨ w.toNat / 2 ^ 28 = 2 ∨ w.toNat / 2 ^ 28 = 3 ∨ w.toNat / 2 ^ 28 = 4 ∨
      w.toNat / 2 ^ 28 = 5 ∨ (w.toNat / 2 ^ 28 = 0 ∨ 6 ≤ w.toNat / 2 ^ 28) := by
  omega

/-! ### Decoder and encoder are inverse -/

theorem encode_summary_toNat : (encode .summary).toNat = 0x30000000 := by decide

/-- Settles O1: the word of each command, as a number, has its OP, zeros in the reserved bits, and the operands in their
fields. -/
theorem decodeOfEncode : Obligations.DecodeOfEncode := by
  intro i
  cases i with
  | init n p =>
    have hw := encode_init_toNat n p
    rw [decode_of_op_init (by omega), unlessReserved_eq_ok_iff, field_of_number (x := n) 0 (by omega),
      field_of_number (x := p) 9 (by omega)]
    exact ⟨by omega, rfl⟩
  | translate a =>
    have hw := encode_translate_toNat a
    rw [decode_of_op_translate (by omega), unlessReserved_eq_ok_iff, field_of_number (x := a) 0 (by omega)]
    exact ⟨by omega, rfl⟩
  | summary =>
    have hw := encode_summary_toNat
    rw [decode_of_op_summary (by omega), unlessReserved_eq_ok_iff]
    exact ⟨by omega, rfl⟩
  | probePt p =>
    have hw := encode_probePt_toNat p
    rw [decode_of_op_probePt (by omega), unlessReserved_eq_ok_iff, field_of_number (x := p) 0 (by omega)]
    exact ⟨by omega, rfl⟩
  | probeTlb p =>
    have hw := encode_probeTlb_toNat p
    rw [decode_of_op_probeTlb (by omega), unlessReserved_eq_ok_iff, field_of_number (x := p) 0 (by omega)]
    exact ⟨by omega, rfl⟩

/-- Settles O2: OP, the reserved bits, which are 0, and the operand fields make up the whole word. -/
theorem encodeOfDecode : Obligations.EncodeOfDecode := by
  intro w i hd
  apply BitVec.eq_of_toNat_eq
  rcases op_cases w with h | h | h | h | h | h
  · rw [decode_of_op_init h, unlessReserved_eq_ok_iff] at hd
    obtain ⟨hzero, rfl⟩ := hd
    rw [encode_init_toNat, toNat_field, toNat_field]
    omega
  · rw [decode_of_op_translate h, unlessReserved_eq_ok_iff] at hd
    obtain ⟨hzero, rfl⟩ := hd
    rw [encode_translate_toNat, toNat_field]
    omega
  · rw [decode_of_op_summary h, unlessReserved_eq_ok_iff] at hd
    obtain ⟨hzero, rfl⟩ := hd
    rw [encode_summary_toNat]
    omega
  · rw [decode_of_op_probePt h, unlessReserved_eq_ok_iff] at hd
    obtain ⟨hzero, rfl⟩ := hd
    rw [encode_probePt_toNat, toNat_field]
    omega
  · rw [decode_of_op_probeTlb h, unlessReserved_eq_ok_iff] at hd
    obtain ⟨hzero, rfl⟩ := hd
    rw [encode_probeTlb_toNat, toNat_field]
    omega
  · rw [decode_of_op_illegal h] at hd
    cases hd

/-- Settles O3: one case for each value of OP; under a legal OP the refusal is the reserved-bit test of its format. -/
theorem decodeRefusesByName : Obligations.DecodeRefusesByName := by
  intro w
  rcases op_cases w with h | h | h | h | h | h
  · rw [decode_of_op_init h, unlessReserved_eq_reservedBits_iff]
    exact ⟨iff_of_false (unlessReserved_ne_illegalOpcode _ _ _ _) (by omega), by omega⟩
  · rw [decode_of_op_translate h, unlessReserved_eq_reservedBits_iff]
    exact ⟨iff_of_false (unlessReserved_ne_illegalOpcode _ _ _ _) (by omega), by omega⟩
  · rw [decode_of_op_summary h, unlessReserved_eq_reservedBits_iff]
    exact ⟨iff_of_false (unlessReserved_ne_illegalOpcode _ _ _ _) (by omega), by omega⟩
  · rw [decode_of_op_probePt h, unlessReserved_eq_reservedBits_iff]
    exact ⟨iff_of_false (unlessReserved_ne_illegalOpcode _ _ _ _) (by omega), by omega⟩
  · rw [decode_of_op_probeTlb h, unlessReserved_eq_reservedBits_iff]
    exact ⟨iff_of_false (unlessReserved_ne_illegalOpcode _ _ _ _) (by omega), by omega⟩
  · rw [decode_of_op_illegal h]
    exact ⟨iff_of_true rfl h, iff_of_false (by simp) (by omega)⟩

/-- Settles O4, by running the decoder on each word. -/
theorem decodeSampleWords : Obligations.DecodeSampleWords := by
  unfold Obligations.DecodeSampleWords
  decide

/-! ### The assembler -/

theorem wf_init_iff (n : BitVec 9) (p : BitVec 2) :
    (Instr.init n p).wf = true ↔ 1 ≤ n.toNat ∧ n.toNat ≤ 256 ∧ p.toNat < 3 := by
  have hp : p ≠ 3 ↔ p.toNat < 3 := by revert p; decide
  rw [Instr.wf, decide_eq_true_iff, hp]

theorem assemble_of_wf {i : Instr} (h : i.wf = true) : assemble i = some (encode i) := if_pos h

theorem assemble_of_not_wf {i : Instr} (h : ¬ i.wf = true) : assemble i = none := if_neg h

end Sys2Proof

namespace Sys2Proof.Machine

/-- Settles O5: the expansions are the model's own equations, page and offset read as one number; INIT is assembled
exactly when it is well formed. -/
theorem assemblerExpandsAndRefuses : Obligations.AssemblerExpandsAndRefuses := by
  refine ⟨by decide, fun p o => ?_, fun _ => rfl, fun n p hbad => ?_, fun n p h1 h2 hp => ?_⟩
  · have haddr : p ++ o = BitVec.ofNat 16 (p.toNat * 256 + o.toNat) :=
      BitVec.eq_of_toNat_eq (by rw [toNat_concat, BitVec.toNat_ofNat]; omega)
    rw [expandLine, haddr]
  · exact assemble_of_not_wf (by rw [wf_init_iff]; omega)
  · exact assemble_of_wf ((wf_init_iff n p).mpr ⟨h1, h2, hp⟩)

/-! ### A step that takes a command word -/

/-- Settles O6, by the step's equation on a command word. -/
theorem stepRunsDecodedCommand : Obligations.StepRunsDecodedCommand := by
  intro s w rest i hs hd
  rw [step_command hs, runWord, hd]
  rfl

/-- From `s` to `t` the coming moves of the host stay, and one response is added after those delivered (R100). -/
def AnswersOnce (s t : State) : Prop := t.host = s.host ∧ ∃ r : Response, t.sent = s.sent ++ [r.words]

theorem answersOnce_translateTo {a : Addr} {s t : State} (ht : TranslateTo a s t) : AnswersOnce s t := by
  cases ht with
  | refused | bsError | tlbHit | softMiss => exact ⟨rfl, _, rfl⟩
  | hardMiss =>
    have hsent : (fillFrame (pageOf a) (selectVictim s s.total) (bsPage s (pageOf a)) (bsReadDone s)).sent =
        s.sent := by simp
    exact ⟨by simp, _, by rw [complete_sent, hsent]⟩

theorem answersOnce_step {s t : State} {w : Word} {rest : List HostMove} (hs : s.host = .command w :: rest)
    (hst : step s = .next t) : AnswersOnce (takeMove rest s) t := by
  cases StepTo.of_step hst with
  | idle h | load h | reset h => simp [hs] at h
  | refused h | init h | report h => cases hs.symm.trans h; exact ⟨rfl, _, rfl⟩
  | translate h hd ht => cases hs.symm.trans h; exact answersOnce_translateTo ht

/-! ### The words of a response -/

@[simp] theorem length_packContent (content : List Byte) : (packContent content).length = 64 := by simp [packContent]

/-- The kind in bits 31:28 of a header word fixes the number of words after it (R100 to R105). -/
def KindFixesLength (h : Word) (ws : List Word) : Prop :=
  (h.toNat / 2 ^ 28 = 1 ∧ ws.length = 65) ∨ (h.toNat / 2 ^ 28 = 2 ∧ ws.length = 0) ∨
    (h.toNat / 2 ^ 28 = 3 ∧ ws.length = 4) ∨ (h.toNat / 2 ^ 28 = 4 ∧ ws.length = 0) ∨
    (h.toNat / 2 ^ 28 = 15 ∧ ws.length = 0)

theorem words_kindFixesLength (r : Response) : ∃ h ws, r.words = h :: ws ∧ KindFixesLength h ws := by
  cases r <;> refine ⟨_, _, rfl, ?_⟩ <;> simp only [KindFixesLength, toNat_concat, BitVec.toNat_ofNat]
  case translated => exact .inl ⟨by omega, by simp⟩
  case initDone => exact .inr (.inl ⟨by omega, rfl⟩)
  case summary => exact .inr (.inr (.inl ⟨by omega, rfl⟩))
  case probe => exact .inr (.inr (.inr (.inl ⟨by omega, rfl⟩)))
  case error => exact .inr (.inr (.inr (.inr ⟨by omega, rfl⟩)))

/-- Settles O12: the step adds the words of one response, and these have the length of their kind. -/
theorem oneResponsePerCommand : Obligations.OneResponsePerCommand := by
  intro s t w rest hs hst
  obtain ⟨hhost, r, hsent⟩ := answersOnce_step hs hst
  obtain ⟨h, ws, hwords, hkind⟩ := words_kindFixesLength r
  exact ⟨hhost, h, ws, by rw [hsent, hwords]; rfl, hkind⟩

/-- Settles O46: the header and the value word are concatenations of their fields. -/
theorem translatedResponseLayout : Obligations.TranslatedResponseLayout := by
  intro o f a v content
  refine ⟨_, _, _, rfl, length_packContent content, ?_, ?_⟩
  all_goals
    simp only [toNat_concat, BitVec.toNat_ofNat]
    omega

/-- Lane `j` of content word `i` is content byte `4i+j` (R106). -/
theorem packWord_lane (content : List Byte) (i : Nat) {j : Nat} (hj : j < 4) :
    (packWord content i).extractLsb' (8 * j) 8 = content.getD (4 * i + j) 0 := by
  apply field_of_number
  rw [packWord, toNat_concat, toNat_concat, toNat_concat]
  interval_cases j
  · rw [Nat.add_zero (4 * i)]
    omega
  all_goals omega

/-- Settles O47: word `2+i` is content word `i`, whose lanes are the content's bytes. -/
theorem contentBytesInTheirLanes : Obligations.ContentBytesInTheirLanes := by
  intro o f a v content hlen i j hi hj w hw
  have hword : w = packWord content i := by
    simpa [Response.words, packContent, Nat.add_comm 2 i, hi, eq_comm] using hw
  have hlt : 4 * i + j < content.length := by omega
  rw [hword, packWord_lane content i hj, List.getD_eq_getElem _ _ hlt, List.getElem?_eq_getElem hlt]

end Sys2Proof.Machine
end

section
/-!
SUPPORT. The address decoder of 41_address_decoder.md: page and offset as numbers (R120).
-/

namespace Sys2Proof.Machine

/-- `addr >> 8` of R120: an address has 16 bits, so the quotient is the whole page. -/
theorem toNat_pageOf (a : Addr) : (pageOf a).toNat = a.toNat / 256 := by
  have hquot : a.toNat / 256 < 256 := Nat.div_lt_of_lt_mul a.isLt
  calc (pageOf a).toNat = a.toNat / 256 % 256 := toNat_field a 8 8
    _ = a.toNat / 256 := Nat.mod_eq_of_lt hquot

/-- `addr & 0xFF` of R120. -/
theorem toNat_offsetOf (a : Addr) : (offsetOf a).toNat = a.toNat % 256 := by
  calc (offsetOf a).toNat = a.toNat / 2 ^ 0 % 256 := toNat_field a 0 8
    _ = a.toNat % 256 := by rw [Nat.pow_zero, Nat.div_one]

/-- Settles O24: page and offset are quotient and remainder by 256, which make up the address. -/
theorem addressDecoderSplits : Obligations.AddressDecoderSplits := by
  intro a
  refine ⟨toNat_pageOf a, toNat_offsetOf a, ?_⟩
  rw [toNat_pageOf, toNat_offsetOf, Nat.div_add_mod']

end Sys2Proof.Machine
end

section
/-!
SUPPORT. The TLB of 42_tlb.md: the response of a probe as a number (R104), and what PROBE.TLB reports (R133).
-/

namespace Sys2Proof.Machine

/-- R104 for a page with a frame: PRESENT is 1, and the frame stands in the low byte. -/
theorem probe_words_of_some (p : Page) (f : Frame) :
    ∃ w : Word, w.toNat = 0x40800000 + p.toNat * 256 + f.toNat ∧ (Response.probe p (some f)).words = [w] := by
  refine ⟨_, ?_, rfl⟩
  simp only [Option.isSome_some, Option.getD_some, toNat_concat, BitVec.toNat_ofBool, Bool.toNat_true,
    BitVec.toNat_ofNat]
  omega

/-- R104 for a page without a frame: PRESENT is 0, and so is the low byte. -/
theorem probe_words_of_none (p : Page) :
    ∃ w : Word, w.toNat = 0x40000000 + p.toNat * 256 ∧ (Response.probe p none).words = [w] := by
  refine ⟨_, ?_, rfl⟩
  simp only [Option.isSome_none, Option.getD_none, toNat_concat, BitVec.toNat_ofBool, Bool.toNat_false,
    BitVec.ofNat_eq_ofNat, BitVec.toNat_ofNat]
  omega

/-- PROBE.TLB answers with what TLBQ's lookup finds and leaves the rest of the state (R133). -/
theorem exec_probeTlb_of_tlbFind {s : State} {p : Page} {r : Option Frame} {ws : List Word} (hfind : tlbFind s p = r)
    (hws : (Response.probe p r).words = ws) : exec (.probeTlb p) s = .next { s with sent := s.sent ++ [ws] } := by
  subst hfind hws
  rfl

/-- Settles O45: with one pair a page, the lookup finds the frame of the page's pair, and none where the page has no
pair. -/
theorem probeTlbReports : Obligations.ProbeTlbReports := by
  intro s p hnodup
  refine ⟨fun f hmem => ?_, fun habsent => ?_⟩
  · have hfind : tlbFind s p = some f := (lookup_eq_some_iff hnodup).mpr hmem
    obtain ⟨w, hw, hwords⟩ := probe_words_of_some p f
    exact ⟨w, hw, exec_probeTlb_of_tlbFind hfind hwords⟩
  · have hfind : tlbFind s p = none :=
      Option.eq_none_iff_forall_ne_some.mpr fun f hf => habsent f (lookup_some_mem hf)
    obtain ⟨w, hw, hwords⟩ := probe_words_of_none p
    exact ⟨w, hw, exec_probeTlb_of_tlbFind hfind hwords⟩

end Sys2Proof.Machine
end

section
/-!
SUPPORT. The page table of 43_page_table.md: what PROBE.PT reports (R153).
-/

namespace Sys2Proof.Machine

/-- PROBE.PT answers with what the page table's lookup finds and leaves the rest of the state (R153). -/
theorem exec_probePt_of_ptLookup {s : State} {p : Page} {r : Option Frame} {ws : List Word} (hfind : ptLookup s p = r)
    (hws : (Response.probe p r).words = ws) : exec (.probePt p) s = .next { s with sent := s.sent ++ [ws] } := by
  subst hfind hws
  rfl

/-- Settles O44: the answer is the probe response for the page's entry, whose words R104 gives for a mapped and for an
unmapped page. -/
theorem probePtReports : Obligations.ProbePtReports := by
  intro s p
  refine ⟨fun f hmapped => ?_, fun hunmapped => ?_⟩
  · obtain ⟨w, hw, hwords⟩ := probe_words_of_some p f
    exact ⟨w, hw, exec_probePt_of_ptLookup hmapped hwords⟩
  · obtain ⟨w, hw, hwords⟩ := probe_words_of_none p
    exact ⟨w, hw, exec_probePt_of_ptLookup hunmapped hwords⟩

end Sys2Proof.Machine
end

section
/-!
SUPPORT. The replacement selector of 44_replacement.md: which frame is the victim (R170 to R173, R178, R180), the OPT
lookahead and its scan (R175, R176), and under which policy a register of the selector is not read (R172, R174).
-/

namespace Sys2Proof.Machine

/-! ### The victim -/

theorem selectVictim_of_fifo {s : State} (pos : Nat) (hp : s.policy = .fifo) : selectVictim s pos = s.cursor := by
  simp [selectVictim, hp]

theorem selectVictim_of_lru_full {s : State} (pos : Nat) (hp : s.policy = .lru) (hfull : s.filled = s.numFrames) :
    selectVictim s pos = lruHead s := by
  simp [selectVictim, hp, (isFull_iff s).mpr hfull]

theorem selectVictim_of_opt_full {s : State} (pos : Nat) (hp : s.policy = .opt) (hfull : s.filled = s.numFrames) :
    selectVictim s pos = selectOpt s pos := by
  simp [selectVictim, hp, (isFull_iff s).mpr hfull]

/-- Settles O37, by the cases of the selector. -/
theorem selectorFollowsPolicy : Obligations.SelectorFollowsPolicy := by
  intro s pos
  refine ⟨selectVictim_of_fifo pos, fun hfill => ?_, fun hp hfull f rest hq => ?_, selectVictim_of_opt_full pos⟩
  · exact selectVictim_of_not_full pos (by simpa [isFull] using hfill)
  · simp [selectVictim_of_lru_full pos hp hfull, lruHead, hq]

/-- Settles O42: both parts are the soundness of the victim that every hard miss rests on. -/
theorem victimIsInRange : Obligations.VictimIsInRange :=
  fun _ pos h => ⟨selectVictim_lt h pos, ownerOf_selectVictim_eq_none_iff h pos⟩

/-- Settles O41: frame 0 is the one frame below NUM_FRAMES. -/
theorem oneFrameVictimIsZero : Obligations.OneFrameVictimIsZero := by
  intro s pos h hn
  have hlt := selectVictim_lt h pos
  exact BitVec.eq_of_toNat_eq (show (selectVictim s pos).toNat = 0 by omega)

/-- Settles O40: the hard miss is the one path that counts a fault; it maps the page to the frame CURSOR names, and
CURSOR counts the faults before it. -/
theorem fifoFramesGoRound : Obligations.FifoFramesGoRound := by
  intro s t a hround hp hx hfault
  cases TranslateTo.of_exec hx with
  | hardMiss =>
    refine ⟨selectVictim s s.total, ?_, by rw [selectVictim_of_fifo _ hp, hround.cursor_eq]⟩
    rw [ptLookup_congr (complete_pt _ _ _ _)]
    exact (fillFrame_maps _ _ _ _).1
  | refused | tlbHit | softMiss | bsError => simp at hfault

/-! ### The lookahead -/

/-- Position `j` is the first one from `start` on at which the trace refers to the page (R176). -/
def RefersFirst (s : State) (p : Page) (start j : Nat) : Prop :=
  start ≤ j ∧ tracePage s j = some p ∧ ∀ i, start ≤ i → i < j → tracePage s i ≠ some p

theorem refersFirst_iff_eq {s : State} {p : Page} {start : Nat} (h : tracePage s start = some p) (j : Nat) :
    RefersFirst s p start j ↔ start = j := by
  constructor
  · rintro ⟨hle, -, hfirst⟩
    exact hle.eq_or_lt.resolve_right fun hlt => hfirst start le_rfl hlt h
  · rintro rfl
    exact ⟨le_rfl, h, fun i hle hlt => absurd hlt (not_lt.mpr hle)⟩

theorem refersFirst_iff_succ {s : State} {p : Page} {start : Nat} (h : tracePage s start ≠ some p) (j : Nat) :
    RefersFirst s p start j ↔ RefersFirst s p (start + 1) j := by
  constructor
  · rintro ⟨hle, hj, hfirst⟩
    exact ⟨hle.lt_of_ne (by rintro rfl; exact h hj), hj, fun i hi => hfirst i (by omega)⟩
  · rintro ⟨hle, hj, hfirst⟩
    refine ⟨by omega, hj, fun i hi hlt => ?_⟩
    rcases hi.eq_or_lt with rfl | hi
    · exact h
    · exact hfirst i hi hlt

/-- The scan of the entries from `start` on finds the first reference. -/
theorem firstUse_eq_some_iff {s : State} (p : Page) {start : Nat} {l : List Addr} (hl : s.trace.drop start = l)
    (j : Nat) : firstUse p start l = some j ↔ RefersFirst s p start j := by
  induction l generalizing start with
  | nil =>
    refine iff_of_false (by simp [firstUse]) fun ⟨hle, hj, _⟩ => ?_
    have hlen := List.drop_eq_nil_iff.mp hl
    simp [tracePage, List.getElem?_eq_none (hlen.trans hle)] at hj
  | cons a rest ih =>
    have hhead : tracePage s start = some (pageOf a) := by
      have hget : s.trace[start]? = some a := by rw [← List.head?_drop, hl]; rfl
      rw [tracePage, hget, Option.map_some]
    have hrest : s.trace.drop (start + 1) = rest := by rw [← List.tail_drop, hl, List.tail_cons]
    rw [firstUse]
    split
    · next hp => rw [refersFirst_iff_eq (hp ▸ hhead), Option.some.injEq]
    · next hp => rw [refersFirst_iff_succ (by simpa [hhead] using hp), ih hrest]

/-- If the trace refers to the page from `start` on, one of the references is the first. -/
theorem forall_not_refersFirst_iff {s : State} {p : Page} {start : Nat} :
    (∀ j, ¬ RefersFirst s p start j) ↔ ∀ i, start ≤ i → tracePage s i ≠ some p := by
  refine ⟨fun h i => ?_, fun h j ⟨hle, hj, _⟩ => h j hle hj⟩
  induction i using Nat.strong_induction_on with
  | h i ih => exact fun hle hi => h i ⟨hle, hi, fun k hk hlt => ih k hlt hk⟩

theorem nextUse_eq_some_iff (s : State) (p : Page) (pos j : Nat) :
    nextUse s (some p) pos = some j ↔ RefersFirst s p (pos + 1) j := firstUse_eq_some_iff p rfl j

/-- Settles O39: the first position after `pos` is the first one from `pos + 1` on; INF is the absence of a first
reference, so of any. -/
theorem nextUseIsFirstReference : Obligations.NextUseIsFirstReference := by
  intro s p pos
  refine ⟨nextUse_eq_some_iff s p pos, ?_⟩
  simp only [Option.eq_none_iff_forall_ne_some, ne_eq, nextUse_eq_some_iff]
  exact forall_not_refersFirst_iff

/-! ### The OPT scan -/

/-- A next use as a distance, INF being above every natural (R175). -/
def distance : Option Nat → ℕ∞
  | some d => d
  | none => ⊤

theorem fartherThan_iff (d best : Option Nat) : fartherThan d best = true ↔ distance best < distance d := by
  rcases d with _ | d <;> rcases best with _ | b <;> simp [fartherThan, distance]

/-- Of the frames below `n`, `b` has the farthest next use, and is the lowest frame that has it (R175). -/
def IsFarthest (s : State) (pos n b : Nat) : Prop :=
  b < n ∧ ∀ g, g < n → distance (useOf s pos g) ≤ distance (useOf s pos b) ∧
    (g < b → distance (useOf s pos g) < distance (useOf s pos b))

/-- One turn of the loop, for the next frame. -/
theorem isFarthest_fartherFrame {s : State} {pos n b : Nat} (h : IsFarthest s pos n b) :
    IsFarthest s pos (n + 1) (fartherFrame s pos b n) := by
  obtain ⟨hb, hbest⟩ := h
  unfold fartherFrame
  split
  · next hfar =>
    rw [fartherThan_iff] at hfar
    have hlower : ∀ g, g < n → distance (useOf s pos g) < distance (useOf s pos n) :=
      fun g hg => (hbest g hg).1.trans_lt hfar
    refine ⟨by omega, fun g hg => ⟨?_, hlower g⟩⟩
    rcases Nat.lt_succ_iff_lt_or_eq.mp hg with hg | rfl
    · exact (hlower g hg).le
    · exact le_rfl
  · next hfar =>
    rw [fartherThan_iff, not_lt] at hfar
    refine ⟨by omega, fun g hg => ?_⟩
    rcases Nat.lt_succ_iff_lt_or_eq.mp hg with hg | rfl
    · exact hbest g hg
    · exact ⟨hfar, fun hlt => by omega⟩

/-- The whole loop, by induction on the number of frames (R175). -/
theorem isFarthest_scan (s : State) (pos : Nat) {n : Nat} (hn : 1 ≤ n) :
    IsFarthest s pos n ((List.range n).foldl (fartherFrame s pos) 0) := by
  induction n, hn using Nat.le_induction with
  | base =>
    have hzero : (List.range 1).foldl (fartherFrame s pos) 0 = 0 := ite_self 0
    rw [hzero]
    exact ⟨Nat.one_pos, fun g hg => by simp [Nat.lt_one_iff.mp hg]⟩
  | succ n _ ih =>
    rw [List.range_succ, List.foldl_concat]
    exact isFarthest_fartherFrame ih

theorem isFarthest_selectOpt {s : State} (pos : Nat) (h1 : 1 ≤ s.numFrames.toNat) (h2 : s.numFrames.toNat ≤ 256) :
    IsFarthest s pos s.numFrames.toNat (selectOpt s pos).toNat := by
  have hscan := isFarthest_scan s pos h1
  rwa [selectOpt, BitVec.toNat_ofNat, Nat.mod_eq_of_lt (hscan.1.trans_le h2)]

theorem useOf_toNat (s : State) (pos : Nat) (f : Frame) : useOf s pos f.toNat = nextUse s (ownerOf s f) pos := by
  rw [useOf, BitVec.ofNat_toNat, BitVec.setWidth_eq]

/-- Settles O38: the scan's order of distances, read back as next uses. -/
theorem optVictimIsFarthest : Obligations.OptVictimIsFarthest := by
  intro s pos h1 h2 hp hfull
  rw [selectVictim_of_opt_full pos hp hfull]
  obtain ⟨hlt, hbest⟩ := isFarthest_selectOpt pos h1 h2
  refine ⟨hlt, fun g hg => ?_⟩
  have hg := hbest g.toNat hg
  rw [useOf_toNat, useOf_toNat] at hg
  refine ⟨fun d hd => ?_, fun hinf hlow hg' => ?_⟩
  · rw [hd] at hg
    rcases he : nextUse s (ownerOf s g) pos with _ | e
    · simp [he, distance] at hg
    · exact ⟨e, rfl, by simpa [he, distance] using hg⟩
  · simp [hinf, hg', distance, hlow] at hg

/-! ### What the selector does not read -/

/-- The state with another LRUQ and another CURSOR. -/
def withSelector (q : List Frame) (c : Frame) (s : State) : State := { s with lruq := q, cursor := c }

theorem ptUnmap_withSelector (p : Page) (q : List Frame) (c : Frame) (s : State) :
    ptUnmap p (withSelector q c s) = withSelector q c (ptUnmap p s) := by
  rcases h : ptLookup s p with _ | f <;>
    simp only [ptUnmap, show ptLookup (withSelector q c s) p = ptLookup s p from rfl, h] <;> rfl

theorem ptMap_withSelector (p : Page) (f : Frame) (q : List Frame) (c : Frame) (s : State) :
    ptMap p f (withSelector q c s) = withSelector q c (ptMap p f s) := by
  rcases h : ownerOf s f with _ | r <;>
    simp only [ptMap, show ownerOf (withSelector q c s) f = ownerOf s f from rfl, h, ptUnmap_withSelector]
  · rfl
  · split <;> rfl

theorem evict_withSelector (f : Frame) (q : List Frame) (c : Frame) (s : State) :
    evict f (withSelector q c s) = withSelector q c (evict f s) := by
  rcases h : ownerOf s f with _ | r <;>
    simp only [evict, show ownerOf (withSelector q c s) f = ownerOf s f from rfl, h, ptUnmap_withSelector] <;> rfl

/-- A fill reads CURSOR only to advance it (R172), and does not read LRUQ. -/
theorem fillFrame_withSelector (p : Page) (f : Frame) (data : List Byte) (q : List Frame) (c : Frame) (s : State) :
    fillFrame p f data (withSelector q c s) =
      withSelector q (BitVec.ofNat 8 ((c.toNat + 1) % s.numFrames.toNat)) (fillFrame p f data s) := by
  have hi : ∀ u, installPage f data (withSelector q c u) = withSelector q c (installPage f data u) := fun _ => rfl
  have hn : (fillFrame p f data s).numFrames = s.numFrames := fillFrame_numFrames p f data s
  rw [← hn, fillFrame, evict_withSelector, hi, ptMap_withSelector]
  rfl

/-- For an operation that leads from `s` to `t`, and from `s` with LRUQ `q` and CURSOR `c` to `t'`: the two ends differ
at most in LRUQ and CURSOR, and of these only in one that differed before. -/
def SameButSelector (q : List Frame) (c : Frame) (s t t' : State) : Prop :=
  ∃ q' c', t' = withSelector q' c' t ∧ (q = s.lruq → q' = t.lruq) ∧ (c = s.cursor → c' = t.cursor)

/-- An operation that changes neither register. -/
theorem sameButSelector_of_kept (q : List Frame) (c : Frame) {s t : State} (hq : t.lruq = s.lruq)
    (hc : t.cursor = s.cursor) : SameButSelector q c s t (withSelector q c t) :=
  ⟨q, c, rfl, fun h => h.trans hq.symm, fun h => h.trans hc.symm⟩

/-- COMPLETE reads LRUQ only to report the access (R174), and does not read CURSOR. -/
theorem sameButSelector_complete (a : Addr) (o : Path) (f : Frame) {q : List Frame} {c : Frame} {s t t' : State}
    (h : SameButSelector q c s t t') : SameButSelector q c s (complete a o f t) (complete a o f t') := by
  obtain ⟨q', c', rfl, hq, hc⟩ := h
  exact ⟨_, c', rfl, fun h => by rw [hq h]; rfl, hc⟩

theorem sameButSelector_fillFrame (p : Page) (f : Frame) (data : List Byte) (q : List Frame) (c : Frame) (s : State) :
    SameButSelector q c s (fillFrame p f data s) (fillFrame p f data (withSelector q c s)) := by
  rw [fillFrame_withSelector]
  exact ⟨q, _, rfl, fun h => by simp [h], fun h => by simp [h]⟩

/-- TRANSLATE takes the same path with another LRUQ and another CURSOR, if they leave the victim. -/
theorem translateTo_withSelector {a : Addr} {s t : State} (q : List Frame) (c : Frame)
    (hv : selectVictim (withSelector q c s) s.total = selectVictim s s.total) (ht : TranslateTo a s t) :
    ∃ t', TranslateTo a (withSelector q c s) t' ∧ SameButSelector q c s t t' := by
  cases ht with
  | refused hc => exact ⟨_, .refused hc, sameButSelector_of_kept q c rfl rfl⟩
  | tlbHit ha hf =>
    exact ⟨_, .tlbHit ha hf, sameButSelector_complete _ _ _ (sameButSelector_of_kept q c rfl rfl)⟩
  | softMiss ha hf hp =>
    exact ⟨_, .softMiss ha hf hp, sameButSelector_complete _ _ _ (sameButSelector_of_kept q c rfl rfl)⟩
  | bsError ha hm hr => exact ⟨_, .bsError ha hm hr, sameButSelector_of_kept q c rfl rfl⟩
  | hardMiss ha hm hr =>
    refine ⟨_, .hardMiss ha hm hr, ?_⟩
    rw [show selectVictim (withSelector q c s) (withSelector q c s).total = selectVictim s s.total from hv]
    exact sameButSelector_complete _ _ _ (sameButSelector_fillFrame _ _ _ q c (bsReadDone s))

/-- So does every step. -/
theorem step_withSelector {s t : State} (q : List Frame) (c : Frame)
    (hv : ∀ pos, selectVictim (withSelector q c s) pos = selectVictim s pos) (h : step s = .next t) :
    ∃ t', step (withSelector q c s) = .next t' ∧ SameButSelector q c s t t' := by
  suffices ∃ t', StepTo (withSelector q c s) t' ∧ SameButSelector q c s t t' from
    this.imp fun t' ht => ⟨ht.1.step, ht.2⟩
  cases StepTo.of_step h with
  | idle hs => exact ⟨_, .idle hs, sameButSelector_of_kept q c rfl rfl⟩
  | load hs => exact ⟨_, .load hs, sameButSelector_of_kept q c rfl rfl⟩
  | reset hs => exact ⟨_, .reset hs, [], 0, rfl, fun _ => rfl, fun _ => rfl⟩
  | refused hs hc => exact ⟨_, .refused hs hc, sameButSelector_of_kept q c rfl rfl⟩
  | init hs hd h1 h2 hp => exact ⟨_, .init hs hd h1 h2 hp, [], 0, rfl, fun _ => rfl, fun _ => rfl⟩
  | @report w rest i r hs hd hr =>
    have hr' : reportOf (takeMove rest (withSelector q c s)) i = some r := by cases i <;> exact hr
    exact ⟨_, .report hs hd hr', sameButSelector_of_kept q c rfl rfl⟩
  | @translate w rest a _ hs hd ht =>
    obtain ⟨t', ht', hsame⟩ := translateTo_withSelector (s := takeMove rest s) q c (hv s.total) ht
    exact ⟨t', .translate hs hd ht', hsame⟩

/-- FIFO names the frame of CURSOR, OPT that or the one of its scan, and neither looks at LRUQ. -/
theorem selectVictim_withLruq {s : State} (hp : s.policy ≠ .lru) (q : List Frame) (pos : Nat) :
    selectVictim (withSelector q s.cursor s) pos = selectVictim s pos := by
  cases hpol : s.policy with
  | fifo =>
    rw [selectVictim_of_fifo pos hpol]
    exact selectVictim_of_fifo (s := withSelector q s.cursor s) pos hpol
  | lru => exact absurd hpol hp
  | opt =>
    cases hfull : isFull s with
    | false =>
      rw [selectVictim_of_not_full pos hfull]
      exact selectVictim_of_not_full (s := withSelector q s.cursor s) pos hfull
    | true =>
      rw [isFull_iff] at hfull
      rw [selectVictim_of_opt_full pos hpol hfull]
      exact selectVictim_of_opt_full (s := withSelector q s.cursor s) pos hpol hfull

/-- Once FULL, LRU names the head of LRUQ and OPT the frame of its scan, and neither looks at CURSOR. -/
theorem selectVictim_withCursor {s : State} (hp : s.policy ≠ .fifo) (hfull : s.filled = s.numFrames) (c : Frame)
    (pos : Nat) : selectVictim (withSelector s.lruq c s) pos = selectVictim s pos := by
  cases hpol : s.policy with
  | fifo => exact absurd hpol hp
  | lru =>
    rw [selectVictim_of_lru_full pos hpol hfull]
    exact selectVictim_of_lru_full (s := withSelector s.lruq c s) pos hpol hfull
  | opt =>
    rw [selectVictim_of_opt_full pos hpol hfull]
    exact selectVictim_of_opt_full (s := withSelector s.lruq c s) pos hpol hfull

/-- Settles O59: the step with another LRUQ ends in a state that differs in LRUQ only, the CURSOR being the same. -/
theorem lruqUnreadUnlessLru : Obligations.LruqUnreadUnlessLru := by
  intro s t q hp hst
  obtain ⟨t', hst', q', c', rfl, -, hc⟩ := step_withSelector q s.cursor (selectVictim_withLruq hp q) hst
  exact ⟨_, hst', by rw [hc rfl]; rfl⟩

/-- Settles O60: the step with another CURSOR ends in a state that differs in CURSOR only, the LRUQ being the same. -/
theorem cursorUnreadOnceFull : Obligations.CursorUnreadOnceFull := by
  intro s t c hp hfull hst
  obtain ⟨t', hst', q', c', rfl, hq, -⟩ := step_withSelector s.lruq c (selectVictim_withCursor hp hfull c) hst
  exact ⟨_, hst', by rw [hq rfl]; rfl⟩

end Sys2Proof.Machine
end

section
/-!
SUPPORT. The translation of 45_translation.md: the state a completed TRANSLATE leads to on each of its paths (R202 to
R207), the TRANSLATE of the same page after it (R200), and the signed value of a byte (R205).
-/

namespace Sys2Proof.Machine

/-! ### COMPLETE -/

/-- COMPLETE responds with the record, makes the frame the most recently used and counts the path (R201, R206, R207). -/
theorem complete_eq (a : Addr) (o : Path) (f : Frame) (s : State) :
    complete a o f s = { countPath o s with
      lruq := s.lruq.filter (fun x => x != f) ++ [f]
      sent := s.sent ++ [record o f a (frameContent s f)] } := by
  rw [record, ← toNat_offsetOf]
  rfl

/-- Settles O26: the hit path promotes the pair and completes. -/
theorem tlbHitCompletes : Obligations.TlbHitCompletes := by
  intro s a f ha hf
  have hrun := (TranslateTo.tlbHit ha hf).exec
  rw [complete_eq] at hrun
  exact hrun

/-- Settles O27: the soft-miss path inserts a pair of a page that has none, and completes. -/
theorem softMissCompletes : Obligations.SoftMissCompletes := by
  intro s a f ha hf hp
  have hrun := (TranslateTo.softMiss ha hf hp).exec
  rw [complete_eq, tlbInsert, insertPair_new f hf] at hrun
  exact hrun

/-! ### The hard miss -/

/-- The state after a hard miss that fills frame `f` with `data`, from the state `e` the eviction leaves: the rules of
R151, R172, R174, R206 and R207, field by field. -/
def filledFrom (a : Addr) (f : Frame) (data : List Byte) (e : State) : State :=
  { e with
    tlbq := (if e.tlbq.length = 16 then e.tlbq.tail else e.tlbq) ++ [(pageOf a, f)]
    pt := e.pt.set (pageOf a).toNat (some f)
    owner := e.owner.set f.toNat (some (pageOf a))
    fs := e.fs.write (f.toNat * 256) data
    cursor := BitVec.ofNat 8 ((e.cursor.toNat + 1) % e.numFrames.toNat)
    lruq := e.lruq.filter (fun x => x != f) ++ [f]
    total := e.total + 1
    tlbMisses := e.tlbMisses + 1
    pageFaults := e.pageFaults + 1
    sent := e.sent ++ [record .hardMiss f a data] }

/-- Install, map, insert, advance and COMPLETE (R204), where the frame is EMPTY and the TLB does not hold the page. -/
theorem complete_fill_eq {a : Addr} {f : Frame} {data : List Byte} {e : State} (hdata : data.length = 256)
    (hfree : ownerOf e f = none) (hfind : tlbFind e (pageOf a) = none) :
    complete a .hardMiss f (advanceCursor (tlbInsert (pageOf a) f (ptMap (pageOf a) f (installPage f data e)))) =
      filledFrom a f data e := by
  have hmap := ptMap_of_free (s := installPage f data e) (p := pageOf a) (.inl hfree)
  rw [complete_eq, hmap, frameContent_of_write e _ f data hdata rfl]
  simp only [filledFrom, countPath, advanceCursor, tlbInsert, setOwner, setPt, installPage, insertPair_new f hfind,
    frameBase, Nat.add_zero]

/-- An eviction only takes pairs out of the TLB, so a page that misses before it misses after it (R132). -/
theorem tlbFind_evict_of_none {s : State} {p : Page} (f : Frame) (h : tlbFind s p = none) :
    tlbFind (evict f s) p = none := by
  rw [tlbFind] at h
  rw [tlbFind, tlbq_evict]
  split
  · rw [lookup_dropPage, h, ite_self]
  · exact h

/-- The eviction of an EMPTY frame counts it as filled (R177). -/
theorem evict_of_empty {s : State} {f : Frame} (ho : ownerOf s f = none) : evict f s = countFill s := by
  simp only [evict, ho]

/-- The eviction of the frame of `q` empties the frame, unmaps `q` and removes its pair (R204, R132, R152). -/
theorem evict_of_mapped {s : State} {f : Frame} {q : Page} (ho : ownerOf s f = some q) (hp : ptLookup s q = some f) :
    evict f s = tlbInvalidate q (setPt q none (setOwner f none s)) := by
  simp only [evict, ho, ptUnmap, hp]

/-- A hard miss from a sound state evicts the victim's page, if it has one, and fills the frame (R204). -/
theorem execTranslate_hardMiss {s : State} {a : Addr} (h : Inv s) (ha : Admitted s a) (hm : Misses s a)
    (hr : ReadWillSucceed s) :
    execTranslate a s =
      .next (filledFrom a (selectVictim s s.total) (bsPage s (pageOf a))
        (evict (selectVictim s s.total) (bsReadDone s))) := by
  have hfree : ownerOf (evict (selectVictim s s.total) (bsReadDone s)) (selectVictim s s.total) = none :=
    (ownerOf_evict (s := bsReadDone s) (fun q => (h.pageTable.inverse _ q).mp) _).trans (if_pos rfl)
  have hfind := tlbFind_evict_of_none (s := bsReadDone s) (selectVictim s s.total) hm.1
  rw [(TranslateTo.hardMiss ha hm hr).exec, fillFrame, complete_fill_eq (length_bsPage s _) hfree hfind]

/-- Settles O28: an EMPTY victim is counted as filled, and nothing is cleared. -/
theorem hardMissFillsEmptyFrame : Obligations.HardMissFillsEmptyFrame := by
  intro s a h ha hm hr ho
  have hrun := execTranslate_hardMiss h ha hm hr
  rw [evict_of_empty (s := bsReadDone s) ho] at hrun
  exact hrun

/-- Settles O29: the eviction clears the entry of `q`, its pair and the frame's owner, and of these the new mapping
writes the owner again. -/
theorem hardMissReplacesVictim : Obligations.HardMissReplacesVictim := by
  intro s a q h ha hm hr ho
  have hrun := execTranslate_hardMiss h ha hm hr
  rw [evict_of_mapped (s := bsReadDone s) ho ((h.pageTable.inverse _ q).mp ho)] at hrun
  simp only [filledFrom, tlbInvalidate, setPt, setOwner, bsReadDone, Vector.set_set] at hrun
  exact hrun

/-! ### The same page again -/

/-- The pair TLB_insert puts last is the only one of its page (R131). -/
theorem insertPair_last (q : List (Page × Frame)) (p : Page) (f : Frame) :
    ∃ r, insertPair q p f = r ++ [(p, f)] ∧ r.lookup p = none := by
  rcases hfind : q.lookup p with _ | g
  · refine ⟨_, insertPair_new f hfind, ?_⟩
    split
    · exact lookup_tail_none hfind
    · exact hfind
  · exact ⟨dropPage q p, by simp [insertPair, hfind], by simp [lookup_dropPage]⟩

/-- A promotion of the last pair changes nothing (R130). -/
theorem tlbPromote_eq_self {p : Page} {f : Frame} {s : State} {r : List (Page × Frame)}
    (hq : s.tlbq = r ++ [(p, f)]) (hr : r.lookup p = none) : tlbPromote p f s = s := by
  have hdrop : dropPage s.tlbq p ++ [(p, f)] = s.tlbq := by
    simpa [hq, dropPage] using dropPage_eq_self hr
  rw [tlbPromote, hdrop]

/-- A TRANSLATE that counts ends in COMPLETE with the page's pair last in the TLB, on each of its paths (R201). -/
theorem lastPair_of_translateTo {a : Addr} {s t : State} (ht : TranslateTo a s t) (hcount : t.total = s.total + 1) :
    ∃ o f u r, t = complete a o f u ∧ u.sent = s.sent ∧ u.tlbq = r ++ [(pageOf a, f)] ∧
      r.lookup (pageOf a) = none := by
  cases ht with
  | refused | bsError => simp at hcount
  | tlbHit => exact ⟨_, _, _, dropPage s.tlbq (pageOf a), rfl, rfl, rfl, by simp [lookup_dropPage]⟩
  | softMiss =>
    obtain ⟨r, hq, hr⟩ := insertPair_last s.tlbq (pageOf a) _
    exact ⟨_, _, _, r, rfl, rfl, hq, hr⟩
  | hardMiss =>
    obtain ⟨r, hq, hr⟩ := insertPair_last _ (pageOf a) (selectVictim s s.total)
    exact ⟨_, _, _, r, rfl, by simp, hq, hr⟩

/-- Settles O34: COMPLETE leaves the page's pair last in TLBQ and its frame last in LRUQ, so the hit moves neither. -/
theorem secondTranslateOfPageHits : Obligations.SecondTranslateOfPageHits := by
  intro s t a b hx hcount hpage hb
  obtain ⟨o, f, u, r, rfl, hsent, hq, hr⟩ := lastPair_of_translateTo (.of_exec hx) hcount
  rw [← hpage] at hq hr
  have hfind : tlbFind (complete a o f u) (pageOf b) = some f := by
    rw [tlbFind, complete_tlbq, hq, lookup_append_last r _ f hr]
  have hrun := (TranslateTo.tlbHit hb hfind).exec
  rw [tlbPromote_eq_self (s := complete a o f u) hq hr] at hrun
  refine ⟨o, f, _, hrun, ?_, ?_, rfl, rfl, rfl, rfl, ?_⟩
  · rw [complete_eq, ← hsent]
    rfl
  · rw [complete_eq b]
  · simp

/-! ### The value byte -/

/-- Settles O48: the sign bit of a byte is set from 128 on. -/
theorem signedValueIsTwosComplement : Obligations.SignedValueIsTwosComplement := by
  intro b
  have hlt := b.isLt
  rw [BitVec.toInt_eq_toNat_cond]
  by_cases h : b.toNat < 128
  · rw [signedValue, if_pos h]
    omega
  · rw [signedValue, if_neg h]
    omega

end Sys2Proof.Machine
end

section
/-!
SUPPORT. The control commands of 46_control.md: the run a legal INIT starts (R230), the report of SUMMARY (R231), and
the host's two rates of that report (R232).
-/

namespace Sys2Proof.Machine

/-! ### INIT -/

/-- The encoding of a policy is read back as that policy (R22). -/
@[simp] theorem policyOfBits_policyBits (p : Policy) : policyOfBits (policyBits p) = some p := by cases p <;> rfl

/-- R102: the header has POLICY above the nine bits of NUM_FRAMES. -/
theorem initDone_words (p : Policy) (n : BitVec 9) :
    ∃ w : Word, w.toNat = 0x20000000 + (policyBits p).toNat * 2 ^ 9 + n.toNat ∧
      (Response.initDone p n).words = [w] := by
  refine ⟨_, ?_, rfl⟩
  simp only [toNat_concat, BitVec.toNat_ofNat]
  omega

/-- INIT with legal operands starts the run and answers INIT_DONE (R230). -/
theorem exec_init_of_legal {n : BitVec 9} (p : Policy) (s : State) (h1 : 1 ≤ n.toNat) (h2 : n.toNat ≤ 256) :
    exec (.init n (policyBits p)) s = .next (respond (.initDone p n) (startRun n p s)) := by
  rcases execInit_cases n (policyBits p) s with ⟨hbad, -⟩ | ⟨-, hnone, -⟩ | ⟨q, -, hq, hrun⟩
  · omega
  · simp at hnone
  · obtain rfl : p = q := by simpa using hq
    exact hrun

/-- Settles O21: the operand is the encoding of the policy, and the start of a run is `freshRun` field by field. -/
theorem initStartsRun : Obligations.InitStartsRun := by
  intro s n b p h1 h2 hp
  obtain rfl : policyBits p = b := by
    apply BitVec.eq_of_toNat_eq
    rcases hp with ⟨hb, rfl⟩ | ⟨hb, rfl⟩ | ⟨hb, rfl⟩ <;> exact hb.symm
  obtain ⟨w, hw, hwords⟩ := initDone_words p n
  refine ⟨w, hw, ?_⟩
  rw [exec_init_of_legal p s h1 h2, respond, hwords]
  rfl

/-! ### SUMMARY -/

/-- Settles O43: the answer is the response of R103, whose header is a concatenation of the status fields. -/
theorem summaryReports : Obligations.SummaryReports := by
  intro s
  have hrun := exec_of_reportOf (s := s) (i := .summary) rfl
  refine ⟨_, ?_, hrun⟩
  simp only [toNat_concat, BitVec.toNat_ofBool, BitVec.toNat_ofNat]
  omega

/-! ### The rates of a SUMMARY response -/

/-- A part of a total is its rate times the total, also where the total is 0 (R232). -/
theorem rateOf_mul_total {part total : Nat} (h : part ≤ total) : rateOf part total * total = part := by
  by_cases htotal : total = 0
  · simp [show part = 0 by omega, htotal]
  · rw [rateOf, if_neg htotal, div_mul_cancel₀ _ (Nat.cast_ne_zero.mpr htotal)]

theorem rateOf_nonneg (part total : Nat) : 0 ≤ rateOf part total := by
  unfold rateOf
  split
  · exact le_rfl
  · positivity

theorem rateOf_le_one {part total : Nat} (h : part ≤ total) : rateOf part total ≤ 1 := by
  unfold rateOf
  split
  · exact zero_le_one
  · exact div_le_one_of_le₀ (Nat.cast_le.mpr h) (Nat.cast_nonneg total)

@[simp] theorem rateOf_total_zero (part : Nat) : rateOf part 0 = 0 := if_pos rfl

@[simp] theorem renderedRate_zero : renderedRate 0 = 0 := by
  have hfloor : (0 : Rat).floor = 0 := Rat.floor_intCast 0
  simp [renderedRate, hfloor]

/-- The counters of a sound state are parts of TOTAL, and TOTAL fits in a response word (R25, R48). -/
theorem counters_fit {s : State} (h : Inv s) : s.pageFaults ≤ s.total ∧ s.tlbHits ≤ s.total ∧ s.total < 2 ^ 32 := by
  have htotal := h.counters.total_eq
  have hfaults := h.counters.faults_le
  have hwidth : 2 ^ s.cntWidth ≤ 2 ^ 32 := Nat.pow_le_pow_right two_pos h.ranges.width_le
  exact ⟨by omega, by omega, h.ranges.total_fits.trans_le hwidth⟩

/-- Counters that fit in a word are read back from the response as they are (R103, R232). -/
theorem ratesOf_of_fit {total faults hits : Nat} (w0 misses : Word) (hf : faults ≤ total) (hh : hits ≤ total)
    (ht : total < 2 ^ 32) :
    ratesOf [w0, BitVec.ofNat 32 total, BitVec.ofNat 32 faults, BitVec.ofNat 32 hits, misses] =
      some (rateOf faults total, rateOf hits total) := by
  rw [ratesOf, BitVec.toNat_ofNat, BitVec.toNat_ofNat, BitVec.toNat_ofNat, Nat.mod_eq_of_lt ht,
    Nat.mod_eq_of_lt (hf.trans_lt ht), Nat.mod_eq_of_lt (hh.trans_lt ht)]

/-- Settles O49: no counter is cut in the response, so the rates are the shares of the counters themselves. -/
theorem ratesAreExactShares : Obligations.RatesAreExactShares := by
  intro s h
  obtain ⟨hf, hh, ht⟩ := counters_fit h
  obtain ⟨w0, -, hrun⟩ := summaryReports s
  refine ⟨_, _, _, _, hrun, rfl, ratesOf_of_fit w0 _ hf hh ht, rateOf_nonneg _ _, rateOf_le_one hf, rateOf_nonneg _ _,
    rateOf_le_one hh, rateOf_mul_total hf, rateOf_mul_total hh, fun h0 => ?_⟩
  simp [h0]

end Sys2Proof.Machine
end

section
/-!
SUPPORT. The exceptions of 60_exceptions.md: what refuses a command (R252 to R260), the failed read (R261), and what an
error changes (R250, R262). Last, the step of the idle block (R272).
-/

namespace Sys2Proof.Machine

/-! ### What an error changes -/

/-- The state after a command that answers the error (R262): the status, the response and, for BS_ERROR, HALTED and the
model's account of the read that failed (log entry 3). -/
def errorState (c : ErrCode) (s : State) : State :=
  { s with
    err := true
    errCode := if s.err then s.errCode else c
    halted := if c = .bsError then true else s.halted
    bsAnswers := if c = .bsError then s.bsAnswers.tail else s.bsAnswers
    bsReads := if c = .bsError then s.bsReads + 1 else s.bsReads
    sent := s.sent ++ [(Response.error c).words] }

theorem raiseError_eq_errorState {c : ErrCode} (hc : c ≠ .bsError) (s : State) :
    raiseError c false s = errorState c s := by
  simp [raiseError, respond, haltIf, latchError, errorState, hc]

theorem haltIf_true (s : State) : haltIf true s = { s with halted := true } := by rw [haltIf, Bool.or_true]

theorem raiseError_bsError_eq_errorState (s : State) :
    raiseError .bsError true (bsReadDone s) = errorState .bsError s := by
  rw [raiseError, haltIf_true]
  rfl

/-- R105: an ERROR response is one word, with the code below the kind. -/
theorem error_words (c : ErrCode) :
    ∃ h : Word, h.toNat = 15 * 2 ^ 28 + (errBits c).toNat * 2 ^ 24 ∧ (Response.error c).words = [h] := by
  refine ⟨_, ?_, rfl⟩
  simp only [toNat_concat, BitVec.toNat_ofNat]
  omega

/-! ### Words refused in every state -/

/-- A refused word is answered with its error, and only the status changes (R252, R253, R262). -/
theorem step_of_refusalOf {s : State} {w h : Word} {rest : List HostMove} {c : ErrCode}
    (hs : s.host = .command w :: rest) (hc : refusalOf (decode w) = some c) (hw : (Response.error c).words = [h]) :
    step s = .next (withError c h { s with host := rest }) := by
  rw [(StepTo.refused hs hc).step, raiseError_eq_withError _ hw]
  rfl

/-- Settles O7: the decoder refuses these words by name, and the refusal is the step's answer in every state. -/
theorem undecodableWordsAnswerErrors : Obligations.UndecodableWordsAnswerErrors := by
  intro s w rest hs
  obtain ⟨hillegal, hreserved⟩ := decodeRefusesByName w
  refine ⟨fun hop => ?_, fun hbits => ?_⟩
  · exact step_of_refusalOf hs (by rw [hillegal.mpr hop]; rfl) (by decide)
  · exact step_of_refusalOf hs (by rw [hreserved.mpr hbits]; rfl) (by decide)

/-- Settles O22, by the cases of INIT: the operands leave one of the two refusals. -/
theorem initRefusesBadOperands : Obligations.InitRefusesBadOperands := by
  intro s n p
  refine ⟨fun hn => ?_, fun h1 h2 hp => ?_⟩
  · have hrun : exec (.init n p) s = .next (raiseError .badNumFrames false s) := if_pos hn
    rw [hrun, raiseError_eq_withError (w := 0xF3000000) s (by decide)]
  · have hnone : policyOfBits p = none := (policyOfBits_eq_none_iff p).mpr (by omega)
    rcases execInit_cases n p s with ⟨hbad, -⟩ | ⟨-, -, hrun⟩ | ⟨q, -, hq, -⟩
    · omega
    · rw [exec, hrun, raiseError_eq_withError (w := 0xF4000000) s (by decide)]
    · simp [hnone] at hq

/-! ### TRANSLATE -/

/-- A refused admission is the answer of TRANSLATE, and only the status changes (R200, R262). -/
theorem exec_translate_of_admission {s : State} {a : Addr} {c : ErrCode} {w : Word} (hc : admission a s = some c)
    (hw : (Response.error c).words = [w]) : exec (.translate a) s = .next (withError c w s) := by
  rw [exec, (TranslateTo.refused hc).exec, raiseError_eq_withError s hw]

/-- Under OPT the trace check is the last of the admission checks (R200, R263). -/
theorem admission_of_opt {s : State} (a : Addr) (hrun : s.halted = false) (hmax : s.total ≠ 2 ^ s.cntWidth - 1)
    (hopt : s.policy = .opt) : admission a s = traceCheck a s := by
  simp [admission, hrun, hmax, hopt]

/-- Settles O25, by the admission checks in their order (R263). -/
theorem translateAdmissionErrors : Obligations.TranslateAdmissionErrors := by
  intro s a
  refine ⟨fun hhalted => ?_, fun hrun hmax => ?_, fun hrun hmax hopt hend => ?_, fun b hrun hmax hopt hentry hb => ?_⟩
  · exact exec_translate_of_admission (by simp [admission, hhalted]) (by decide)
  · exact exec_translate_of_admission (by simp [admission, hrun, hmax]) (by decide)
  · have hcheck : traceCheck a s = some .traceExhausted := by simp [traceCheck, hend]
    exact exec_translate_of_admission ((admission_of_opt a hrun hmax hopt).trans hcheck) (by decide)
  · have hcheck : traceCheck a s = some .traceMismatch := by simp [traceCheck, hentry, hb]
    exact exec_translate_of_admission ((admission_of_opt a hrun hmax hopt).trans hcheck) (by decide)

/-- Settles O30: the failed read is one of the paths of TRANSLATE, and its error is BS_ERROR. -/
theorem failedReadIsFatalAndPrecise : Obligations.FailedReadIsFatalAndPrecise := by
  intro s a ha hm hr
  have hrun := (TranslateTo.bsError ha hm hr).exec
  rw [raiseError_bsError_eq_errorState] at hrun
  exact hrun

/-! ### Every command -/

/-- BS_ERROR is not among the errors of a refused word: it is that of the failed read alone (R261). -/
theorem refusalOf_ne_bsError (d : Decoded) : refusalOf d ≠ some .bsError := by
  unfold refusalOf
  repeat' split
  all_goals simp

/-- BS_ERROR is not among the errors of the admission (R261). -/
theorem admission_ne_bsError (a : Addr) (s : State) : admission a s ≠ some .bsError := by
  unfold admission traceCheck
  repeat' split
  all_goals simp

/-- From `s` to `t` a command answers an error, with the status it sets, or a response that is none (R100, R262). -/
def AnswersErrorOrElse (s t : State) : Prop :=
  (∃ c, c ≠ .none ∧ t = errorState c s) ∨ ∃ r : Response, t.sent = s.sent ++ [r.words] ∧ ∀ c, r ≠ .error c

/-- An error other than BS_ERROR is raised as a command error (R262). -/
theorem answersErrorOrElse_raiseError {c : ErrCode} (s : State) (hnone : c ≠ .none) (hbs : c ≠ .bsError) :
    AnswersErrorOrElse s (raiseError c false s) := .inl ⟨c, hnone, raiseError_eq_errorState hbs s⟩

/-- COMPLETE answers the record of the translation (R206). -/
theorem answersErrorOrElse_complete (a : Addr) (o : Path) (f : Frame) {s u : State} (h : u.sent = s.sent) :
    AnswersErrorOrElse s (complete a o f u) := by
  have hsent := complete_sent a o f u
  rw [h] at hsent
  exact .inr ⟨_, hsent, fun _ => nofun⟩

theorem answersErrorOrElse_translateTo {a : Addr} {s t : State} (ht : TranslateTo a s t) : AnswersErrorOrElse s t := by
  cases ht with
  | refused hc =>
    refine answersErrorOrElse_raiseError s ?_ ?_ <;> rintro rfl
    · exact admission_ne_none_code hc
    · exact admission_ne_bsError a s hc
  | bsError => exact .inl ⟨.bsError, by decide, raiseError_bsError_eq_errorState s⟩
  | tlbHit | softMiss => exact answersErrorOrElse_complete a _ _ rfl
  | hardMiss => exact answersErrorOrElse_complete a _ _ (by simp)

theorem reportOf_ne_error (s : State) (i : Instr) (c : ErrCode) : reportOf s i ≠ some (.error c) := by
  cases i <;> simp [reportOf]

/-- Every command answers an error, with the status it sets, or another response. -/
theorem answersErrorOrElse_step {s t : State} {w : Word} {rest : List HostMove} (hs : s.host = .command w :: rest)
    (hst : step s = .next t) : AnswersErrorOrElse (takeMove rest s) t := by
  cases StepTo.of_step hst with
  | idle h | load h | reset h => simp [hs] at h
  | refused h hc =>
    cases hs.symm.trans h
    refine answersErrorOrElse_raiseError _ ?_ ?_ <;> rintro rfl
    · exact refusalOf_ne_none_code _ hc
    · exact refusalOf_ne_bsError _ hc
  | init h => cases hs.symm.trans h; exact .inr ⟨_, rfl, fun _ => nofun⟩
  | report h hd hr =>
    cases hs.symm.trans h
    exact .inr ⟨_, rfl, fun c he => reportOf_ne_error _ _ c (he ▸ hr)⟩
  | translate h hd ht => cases hs.symm.trans h; exact answersErrorOrElse_translateTo ht

/-- Only an ERROR response is one word of kind 15 (R100 to R105). -/
theorem error_of_kind {r : Response} {h : Word} (hwords : r.words = [h]) (hkind : h.toNat / 2 ^ 28 = 15) :
    ∃ c, r = .error c := by
  cases r with
  | error c => exact ⟨c, rfl⟩
  | translated | summary => cases hwords
  | initDone | probe =>
    cases hwords
    simp only [toNat_concat, BitVec.toNat_ofNat] at hkind
    omega

/-- Settles O50: the response is that of an error, so the state is the one this error leaves. -/
theorem errorsChangeOnlyStatus : Obligations.ErrorsChangeOnlyStatus := by
  intro s t w h rest hs hst hsent hkind
  rcases answersErrorOrElse_step hs hst with ⟨c, hc, rfl⟩ | ⟨r, hr, hne⟩
  · obtain ⟨g, hg, hwords⟩ := error_words c
    have hh : [g] = [h] := hwords.symm.trans (by simpa [errorState, takeMove] using hsent)
    cases hh
    refine ⟨c, hc, hg, ?_⟩
    rw [errorState, hwords]
    rfl
  · have hwords : r.words = [h] := by simpa [takeMove] using hr.symm.trans hsent
    obtain ⟨c, rfl⟩ := error_of_kind hwords hkind
    exact absurd rfl (hne c)

/-! ### The idle block -/

/-- Settles O8: with no move to take the step is the idle one. -/
theorem idleKeepsState : Obligations.IdleKeepsState := fun _ hs => (StepTo.idle hs).step

end Sys2Proof.Machine
end

section
/-!
SUPPORT. Reset and the hazards of 70_reset_and_hazards.md: the reset input and the command it abandons (R290, R291), the
order of invalidate and insert in a hard miss (R295), and the backing-store port that answers or does not (R299).
-/

namespace Sys2Proof.Machine

/-! ### The invalidate before the insert -/

/-- The removal of a pair that is there makes room, so the insert that follows evicts nothing (R131, R132). -/
theorem insertPair_dropPage {l : List (Page × Frame)} {p q : Page} (f : Frame) (hlen : l.length ≤ 16)
    (hp : l.lookup p = none) (hq : (l.lookup q).isSome = true) :
    insertPair (dropPage l q) p f = dropPage l q ++ [(p, f)] := by
  obtain ⟨g, hg⟩ := Option.isSome_iff_exists.mp hq
  have hroom : (dropPage l q).length < 16 := lt_of_lt_of_le (dropPage_length_lt (lookup_some_mem hg)) hlen
  have hmiss : (dropPage l q).lookup p = none := by rw [lookup_dropPage, hp, ite_self]
  rw [insertPair_new f hmiss, if_neg hroom.ne]

/-- The fill of an occupied frame whose page the TLB holds: that page's pair goes and the new pair is last (R295). -/
theorem tlbq_fillFrame_of_held {s : State} {q : Page} {f : Frame} (p : Page) (data : List Byte)
    (h : ∀ r, ownerOf s f = some r → ptLookup s r = some f) (hlen : s.tlbq.length ≤ 16) (ho : ownerOf s f = some q)
    (hp : tlbFind s p = none) (hq : (tlbFind s q).isSome = true) :
    (fillFrame p f data s).tlbq = dropPage s.tlbq q ++ [(p, f)] := by
  rw [tlbq_fillFrame p data h, ho]
  exact insertPair_dropPage f hlen hp hq

/-- Settles O36: the hard miss is the one path that counts a fault, and it puts the new pair behind what is left of TLBQ
without the victim's pair. -/
theorem invalidateBeforeInsert : Obligations.InvalidateBeforeInsert := by
  intro s t a q h hx hcount ho hq
  cases TranslateTo.of_exec hx with
  | refused | tlbHit | softMiss | bsError => simp at hcount
  | hardMiss ha hm =>
    have hne : q ≠ pageOf a := by
      rintro rfl
      simp [hm.1] at hq
    rw [tlbFind, complete_tlbq, tlbq_fillFrame_of_held (s := bsReadDone s) (pageOf a) _
      (fun r => (h.pageTable.inverse _ r).mp) h.tlb.length_le ho hm.1 hq, bsReadDone_tlbq]
    refine ⟨fun e he hpage => List.mem_append_left _ (mem_dropPage.mpr ⟨he, hpage⟩), ?_⟩
    rw [lookup_append_other _ _ _ _ hne, lookup_dropPage, if_pos rfl]

/-! ### The backing-store port -/

/-- A port that answers every read answers the coming one (R299). -/
theorem bsSilent_of_portAnswers {s : State} (h : PortAnswers s) : bsSilent s = false := by
  rw [bsSilent, beq_eq_false_iff_ne]
  exact fun hs => h (List.mem_of_head? hs)

/-- TRANSLATE takes one of its paths unless the port is silent (R200 to R204). -/
theorem exists_translateTo (a : Addr) {s : State} (hport : bsSilent s = false) : ∃ t, TranslateTo a s t := by
  rcases hc : admission a s with _ | c
  · have ha := admission_eq_none.mp hc
    rcases hf : tlbFind s (pageOf a) with _ | f
    · rcases hp : ptLookup s (pageOf a) with _ | f
      · rcases hr : bsReadFails s with _ | _
        · exact ⟨_, .hardMiss ha ⟨hf, hp⟩ ((readWillSucceed_iff s).mpr ⟨hport, hr⟩)⟩
        · exact ⟨_, .bsError ha ⟨hf, hp⟩ ((readWillFail_iff s).mpr ⟨hport, hr⟩)⟩
      · exact ⟨_, .softMiss ha hf hp⟩
    · exact ⟨_, .tlbHit ha hf⟩
  · exact ⟨_, .refused hc⟩

/-- Every command goes on unless the port is silent; TRANSLATE is the one that reads it (R299). -/
theorem exec_goes_on (i : Instr) {s : State} (hport : bsSilent s = false) : ∃ t, exec i s = .next t := by
  cases i with
  | init n b => rcases execInit_cases n b s with ⟨-, hx⟩ | ⟨-, -, hx⟩ | ⟨p, -, -, hx⟩ <;> exact ⟨_, hx⟩
  | translate a => exact (exists_translateTo a hport).imp fun _ ht => ht.exec
  | summary => exact ⟨_, rfl⟩
  | probePt p => exact ⟨_, rfl⟩
  | probeTlb p => exact ⟨_, rfl⟩

/-- Every word goes on unless the port is silent: run or refused (R97). -/
theorem runWord_goes_on (w : Word) {s : State} (hport : bsSilent s = false) : ∃ t, runWord w s = .next t := by
  rcases hd : decode w with i | _ | _
  · simpa only [runWord, hd] using exec_goes_on i hport
  · exact ⟨_, runWord_of_refusalOf s (congrArg refusalOf hd)⟩
  · exact ⟨_, runWord_of_refusalOf s (congrArg refusalOf hd)⟩

/-- Settles O13, by the host's moves: only a command word can read the port, and this port is not silent. -/
theorem stepGoesOnWhenPortAnswers : Obligations.StepGoesOnWhenPortAnswers := by
  intro s hport
  rcases hs : s.host with _ | ⟨move, rest⟩
  · exact ⟨_, (StepTo.idle hs).step⟩
  · cases move with
    | command w =>
      rw [step_command hs]
      exact runWord_goes_on w (s := takeMove rest s) (bsSilent_of_portAnswers hport)
    | reset => exact ⟨_, (StepTo.reset (.inl hs)).step⟩
    | resetDuring w => exact ⟨_, (StepTo.reset (.inr ⟨w, hs⟩)).step⟩
    | load bytes trace => exact ⟨_, (StepTo.load hs).step⟩

/-- A miss in both tables whose port is silent never ends (U8). -/
theorem resolve_of_silent {a : Addr} {s : State} (hm : Misses s a) (hs : bsSilent s = true) :
    resolve a s = .fault .bsPortSilent := by
  obtain ⟨hf, hp⟩ := hm
  simp [resolve, tlbLookup, hf, hp, hs]

/-- Settles O31: the admitted TRANSLATE comes to the read that the port does not answer. -/
theorem silentPortStops : Obligations.SilentPortStops := by
  intro s a ha hm hport
  exact (execTranslate_of_admitted ha).trans (resolve_of_silent hm (beq_iff_eq.mpr hport))

/-! ### Reset -/

/-- Settles O10: the word is not looked at, and the start of a run is `freshRun` field by field. -/
theorem resetAbandonsCommand : Obligations.ResetAbandonsCommand :=
  fun _ w _ hs => (StepTo.reset (.inr ⟨w, hs⟩)).step

/-- Settles O23: both start a run with 256 frames and FIFO, and INIT_DONE is the only difference. -/
theorem initDefaultsEqualReset : Obligations.InitDefaultsEqualReset := by
  intro s rest hs
  exact ⟨_, exec_init_of_legal .fifo (takeMove rest s) (by decide) (by decide), (StepTo.reset (.inl hs)).step⟩

end Sys2Proof.Machine
end
